-- ==== Sys2Proof/Word.lean ====
section
/-! DEFINITION. The word types of the block (rules R7, R8): every value is unsigned. -/

namespace Sys2Proof

/-- A u8: one byte of the wire, of a host operation, or a brightness operand (R7). -/
abbrev Byte := BitVec 8

/-- A u16: a channel value, a channel index operand or an LED index operand (R7). -/
abbrev Word := BitVec 16

/-- A brightness register, 7 bits (R7, R23). -/
abbrev Bright := BitVec 7

/-- The command word `CMD`, a u32 (R25; `90_conflicts.md` C1). -/
abbrev Cmd := BitVec 32

end Sys2Proof
end

