-- ==== Sys2Proof/Config.lean ====
section
/-! DEFINITION. What an implementation fixes: the parameters of rule R6, and the values the spec leaves open. -/

namespace Sys2Proof

/-- The transport variant, chosen once at construction (R6, R110). -/
inductive Transport where
  /-- clock and data lines toggled in software (R112) -/
  | softwareBitBang
  /-- bytes handed to a hardware serial peripheral (R116) -/
  | hardwarePeripheral
  deriving DecidableEq, Repr

/-- The parameters of R6 that a step of the machine reads. They never change during a run. -/
structure Params where
  /-- `N`, the number of chained devices -/
  chainLength : Nat
  /-- `TRANSPORT` -/
  transport : Transport
  /-- `ALLOC_OK`: whether the channel buffer was created at construction, one draw per run (R6, `92` D30) -/
  allocOk : Bool
  deriving DecidableEq, Repr

/-- The parameters `State.reset` is constructed with. DESIGN CHOICE, unsafe (log 2): the spec leaves every one open;
every statement about the machine quantifies over states with any parameters. -/
def Config.resetParams : Params :=
  { chainLength := 1, transport := .softwareBitBang, allocOk := true }

/-- `TRANSPORT_OK`, the n-th draw of a run: whether the transport initialises when BEGIN runs (R6, R124; `92` D30).
A FREE VALUE (log 6): no body, so nothing can be proved of it. -/
opaque Config.transportOk : Nat → Bool

/-- How far `F_SCK` lies above 500 kHz, in Hz (R6; `92` D20). A FREE VALUE within the spec's range (log 17). -/
opaque Config.sckAboveFloor : Fin 500001

/-- `F_SCK` in Hz, OPEN within [500 kHz, 1 MHz] (R6, R116; `92` D20). No rule depends on it. -/
def Config.fSck : Nat := 500000 + Config.sckAboveFloor.val

/-- `CHAIN_POSITION` for a chain of `m + 1` devices: which physical chip receives the frame of buffer device `n`.
OPEN (R6, R120; `92` D16): a FREE VALUE (log 17). -/
opaque Config.chainPosition : (m : Nat) → Fin (m + 1) → Fin (m + 1)

end Sys2Proof
end

