-- ==== Sys2Proof/Syntax.lean ====
section
/-! DEFINITION. The instructions: one constructor per row of spec/opcode_table.json, and the text form of rule R72. -/

namespace Sys2Proof

/-- The eight host operations (R59) and the wire command word (R60). Each operand's type is its field's width (R65). -/
inductive Instr where
  /-- BEGIN, opcode 01 (R124) -/
  | begin
  /-- SETCH idx, val, opcode 10 (R78) -/
  | setch (idx val : Word)
  /-- GETCH idx, opcode 11 (R80) -/
  | getch (idx : Word)
  /-- SETLED k, r, g, b, opcode 20 (R82) -/
  | setled (k r g b : Word)
  /-- GETLED k, opcode 21 (R84) -/
  | getled (k : Word)
  /-- SETBC r, g, b, opcode 30 (R86) -/
  | setbc (r g b : Byte)
  /-- SETBCU x, opcode 31 (R88) -/
  | setbcu (x : Byte)
  /-- WRITE, opcode 40 (R93) -/
  | write
  /-- WRCMD: the 32-bit command word at the head of a device frame, with its three brightness fields (R60, R96).
  Emitted by WRITE, not issued by the host. -/
  | wrcmd (bcR bcG bcB : Bright)
  deriving DecidableEq, Repr

/-- The opcodes of the eight host operations (R59). -/
inductive Opcode where
  | begin | setch | getch | setled | getled | setbc | setbcu | write
  deriving DecidableEq, Repr

/-- Why the model refuses an input (R136). -/
inductive RefReason where
  /-- REF_OPCODE: the opcode byte is unassigned (R68) -/
  | opcode
  /-- REF_TRUNCATED: fewer bytes remain than the opcode's length (R71) -/
  | truncated
  /-- REF_CONFIG: the parameters break R6 (R146) -/
  | config
  /-- REF_OVERLAP: an operation is started while another runs (R155) -/
  | overlap
  deriving DecidableEq, Repr

/-- One line of assembler text after the text itself is read: a mnemonic and its operand literals (R72). -/
structure AsmLine where
  mnemonic : Opcode
  operands : List Nat
  deriving DecidableEq, Repr

end Sys2Proof
end

