-- ==== Sys2Proof/Machine/State.lean ====
section
/-! DEFINITION. The state of the block (R20 to R36) and its value after construction (R39). -/

namespace Sys2Proof.Machine

/-- A level of an output line: `unknown` until the block first drives it (R35). -/
inductive PinLevel where
  | unknown | low | high
  deriving DecidableEq, Repr

/-- One event of the wire trace (R10). -/
inductive Event where
  /-- the block asks that preemption and interrupts be suppressed -/
  | enterCritical
  /-- the block acquires exclusive transport ownership -/
  | beginTxn
  /-- one transfer of a byte -/
  | byte (v : Byte)
  /-- a settle delay, in microseconds -/
  | delay (us : Nat)
  /-- the block releases transport ownership -/
  | endTxn
  /-- the block re-enables preemption -/
  | exitCritical
  /-- the clock line is driven to a level, true for 1 (R112) -/
  | sck (level : Bool)
  /-- the data line is driven to a level, true for 1 (R112) -/
  | sdo (level : Bool)
  /-- the block configures pin directions -/
  | configPins
  /-- the block initialises the hardware peripheral -/
  | initPeripheral
  deriving DecidableEq, Repr

/-- The outcome of the most recent BEGIN (R27). -/
inductive InitStatus where
  | none | ok | allocFail | transportFail
  deriving DecidableEq, Repr

/-- The value the last operation returned to the host (R32). -/
inductive Result where
  | nothing
  | bool (b : Bool)
  | word (v : Word)
  | triple (r g b : Word)
  deriving DecidableEq, Repr

/-- A fault of the block with its recorded info (R130). These are the SPEC's faults: entering one is a next state (R131). -/
inductive FaultRecord where
  /-- code 1: the opcode -/
  | noBuffer (opcode : Opcode)
  /-- code 2: the opcode and the channel index, which is `C` -/
  | chOverrun (opcode : Opcode) (index : Nat)
  /-- code 3: the opcode and the operand, `idx` or `k` -/
  | rdRange (opcode : Opcode) (operand : Word)
  /-- code 4: the opcode and `init_status` -/
  | notReady (opcode : Opcode) (status : InitStatus)
  deriving DecidableEq, Repr

/-- The serializer position while a WRITE runs (R36): device `n`, byte `b` of its frame, bit `k` of that byte, which is the
next bit to send (always 7 under the hardware transport). -/
structure Position where
  device : Nat
  byte : Nat
  bit : Nat
  deriving DecidableEq, Repr

/-- The channel buffer as (index, value) pairs, indices strictly rising, no value 0: an unlisted index holds 0, the value
construction gives every element (R39, R42; log 15). -/
abbrev Memory := List (Nat × Word)

/-- The state of the block (R20), with the host's remaining operations and interrupt state, the parameters of R6 and the
model's draw counter. -/
structure State where
  /-- the parameters of R6 the steps read; no step changes them (log 1) -/
  params : Params
  /-- the channel buffer; it does not exist when `params.allocOk` is false (R21) -/
  pwm : Memory
  /-- `bc_r` (R23) -/
  bcR : Bright
  /-- `bc_g` (R23) -/
  bcG : Bright
  /-- `bc_b` (R23) -/
  bcB : Bright
  /-- `ready` (R26) -/
  ready : Bool
  /-- `init_status` (R27) -/
  initStatus : InitStatus
  /-- `fault` (R28) -/
  fault : Option FaultRecord
  /-- the refusal mark `refused` and the reason recorded with it: `refused` is true exactly when a reason stands here
  (R29, R136) -/
  refusal : Option RefReason
  /-- `trace`, oldest event first (R30) -/
  trace : List Event
  /-- `pc`, the index of the next host operation (R31) -/
  pc : Nat
  /-- `result` (R32) -/
  result : Result
  /-- `in_critical` (R33) -/
  inCritical : Bool
  /-- `txn_held` (R34) -/
  txnHeld : Bool
  /-- the clock line (R35) -/
  sck : PinLevel
  /-- the data line (R35) -/
  sdo : PinLevel
  /-- `pins_configured` (R35) -/
  pinsConfigured : Bool
  /-- the serializer position; none outside a WRITE (R36) -/
  position : Option Position
  /-- the HOST's interrupts are enabled: WRITE turns them off and on (R121, R141, R153; log 13) -/
  interruptsEnabled : Bool
  /-- the bytes of the host's operation sequence from operation `pc` on (R58, R71; log 7) -/
  input : List Byte
  /-- the model's own counter: how many TRANSPORT_OK draws were made (log 6) -/
  draws : Nat
  deriving DecidableEq, Repr

/-- The MODEL's own stops (log 16), both SAFE: only a state no run reaches meets one. The spec's faults are
`FaultRecord`. -/
inductive Fault where
  /-- raised by WRITE and by a serializer's turn in a state that is ready, or in the middle of a WRITE, without a channel
  buffer (R94 rules that state out). Safe: the model stops where the spec has no such state. -/
  | missingBuffer
  /-- raised by a serializer's turn at a position outside R36's ranges, or outside the transaction. Safe: the model stops
  where the spec has no such state. -/
  | badPosition
  deriving DecidableEq, Repr

/-- Why the model gives an instruction no meaning. -/
inductive Refusal where
  /-- raised by `exec` for an instruction that has no meaning yet, by its mnemonic; safe -/
  | notModelled (mnemonic : String)
  deriving DecidableEq, Repr

/-- The outcome of a step of this machine. -/
abbrev StepOutcome := Host.Outcome State Fault Refusal

/-- Every piece of state at its value after construction (R39), for any parameters. -/
def State.initial (p : Params) : State :=
  { params := p
    pwm := []
    bcR := 127#7
    bcG := 127#7
    bcB := 127#7
    ready := false
    initStatus := .none
    fault := none
    refusal := none
    trace := []
    pc := 0
    result := .nothing
    inCritical := false
    txnHeld := false
    sck := .unknown
    sdo := .unknown
    pinsConfigured := false
    position := none
    interruptsEnabled := true
    input := []
    draws := 0 }

/-- The machine right after construction (R39, R146), with the parameters of `Config.resetParams` (log 2). -/
def State.reset : State := State.initial Config.resetParams

end Sys2Proof.Machine
end

