-- ==== Sys2Proof/Machine/Flags.lean ====
section
/-! DEFINITION. The status bits (R38). The block has no arithmetic flags; what stands here is computed from `fault`,
`refusal`, `in_critical`, `txn_held` and the serializer position. -/

namespace Sys2Proof.Machine

/-- `refused` (R29, R136). -/
def State.refused (s : State) : Bool := s.refusal.isSome

/-- A fault or a refusal stands: no operation executes from here on (R75, R131, R136). -/
def State.halted (s : State) : Bool := s.fault.isSome || s.refused

/-- A WRITE is running (R33, R34, R36): an operation started now would overlap it (R155). -/
def State.busy (s : State) : Bool := s.inCritical || s.txnHeld || s.position.isSome

/-- The fault code of R130. -/
def FaultRecord.code : FaultRecord → Nat
  | .noBuffer _ => 1
  | .chOverrun _ _ => 2
  | .rdRange _ _ => 3
  | .notReady _ _ => 4

end Sys2Proof.Machine
end

