-- ==== Sys2Proof/Machine/Operands.lean ====
section
/-! DEFINITION. Operand forms: the channel index of an LED operand (R66, R81) and the clamp of a brightness operand
(R67), and the quantities derived from the parameters (R6, R118). -/

namespace Sys2Proof.Machine

/-- Channel `c` of LED `k`: `3k + c`, an exact integer with no wrap (R66). -/
def ledChannel (k : Word) (c : Nat) : Nat := 3 * k.toNat + c

/-- `min(x, 127)` as a 7-bit value (R67, R86). -/
def clampBright (x : Byte) : Bright := BitVec.ofNat 7 (min x.toNat 127)

/-- Channel `c` of device `n`: `12n + c` (R22). -/
def deviceChannel (n c : Nat) : Nat := 12 * n + c

/-- `C = 12 * N` (R6, R41). -/
def channelCount (p : Params) : Nat := 12 * p.chainLength

/-- `settle_us`: 200 under the software transport, 2 under the hardware transport (R118). -/
def settleMicros (p : Params) : Nat :=
  match p.transport with
  | .softwareBitBang => 200
  | .hardwarePeripheral => 2

/-- A line level from a bit (R35). -/
def pinOfBit (b : Bool) : PinLevel := if b then .high else .low

/-- R36's ranges: `n < N`, `b < 28`, and bit `k <= 7`, which only the software transport counts down. -/
def Position.legal (p : Position) (q : Params) : Bool :=
  decide (p.device < q.chainLength) && decide (p.byte < 28) &&
    match q.transport with
    | .softwareBitBang => decide (p.bit ≤ 7)
    | .hardwarePeripheral => decide (p.bit = 7)

end Sys2Proof.Machine
end

