-- ==== Sys2Proof/WellFormed.lean ====
section
/-! DEFINITION. The checks on terms: parameters (R6), which instructions a host may issue (R59), assembler lines (R72). -/

namespace Sys2Proof

/-- R6: `1 <= N <= 5461`. `TRANSPORT` and `ALLOC_OK` have no illegal value. -/
def Params.wf (p : Params) : Bool := decide (1 ≤ p.chainLength) && decide (p.chainLength ≤ 5461)

/-- Well-formedness for the host's operation encoding: one of the eight host operations (R59).
The widths of R7 and R65 are the operands' types, so the only term the check turns away is the wire's command word,
which the host does not issue (it has the wire encoding of R60 instead). -/
def Instr.hostIssued : Instr → Bool
  | .begin => true
  | .setch _ _ => true
  | .getch _ => true
  | .setled _ _ _ _ => true
  | .getled _ => true
  | .setbc _ _ _ => true
  | .setbcu _ => true
  | .write => true
  | .wrcmd _ _ _ => false

/-- The largest value of each operand field of an operation, in order (R59, R72). -/
def Opcode.operandMax : Opcode → List Nat
  | .begin => []
  | .setch => [65535, 65535]
  | .getch => [65535]
  | .setled => [65535, 65535, 65535, 65535]
  | .getled => [65535]
  | .setbc => [255, 255, 255]
  | .setbcu => [255]
  | .write => []

/-- R72: as many operands as the operation has, each fitting its field. -/
def AsmLine.wf (l : AsmLine) : Bool :=
  decide (l.operands.length = l.mnemonic.operandMax.length) &&
    (l.operands.zip l.mnemonic.operandMax).all fun ov => decide (ov.1 ≤ ov.2)

end Sys2Proof
end

