-- ==== Sys2Proof/Machine/Ops.lean ====
section
/-! DEFINITION. The named operations over the state: the channel buffer, the trace, the pins, raising a fault (R131),
refusing (R136), completing (R31), and construction (R146). -/

namespace Sys2Proof.Machine

/-! ## The channel buffer (R21, R42) -/

/-- `pwm[i]`: an unlisted element holds 0 (R39). -/
def Memory.read : Memory → Nat → Word
  | [], _ => 0#16
  | (a, v) :: m, i => if a = i then v else Memory.read m i

/-- An entry for a value, or none for the value an unlisted element holds. -/
def Memory.entry (i : Nat) (v : Word) : Memory := if v = 0#16 then [] else [(i, v)]

/-- `pwm[i] <- v`, in canonical form. -/
def Memory.write : Memory → Nat → Word → Memory
  | [], i, v => Memory.entry i v
  | (a, w) :: m, i, v =>
    if i < a then Memory.entry i v ++ (a, w) :: m
    else if i = a then Memory.entry i v ++ m
    else (a, w) :: Memory.write m i v

/-- Canonical from index `lo` on: indices strictly rising and at least `lo`, no value 0. -/
def Memory.wfFrom : Nat → Memory → Bool
  | _, [] => true
  | lo, (a, v) :: m => decide (lo ≤ a) && decide (v ≠ 0#16) && Memory.wfFrom (a + 1) m

/-- The canonical form: equal buffers are equal lists. -/
def Memory.wf (m : Memory) : Bool := Memory.wfFrom 0 m

/-- Every listed element exists: its index is below `c` (R41). -/
def Memory.below (c : Nat) (m : Memory) : Bool := m.all fun e => decide (e.1 < c)

/-- Writes one element of the state's buffer. -/
def State.putChannel (i : Nat) (v : Word) (s : State) : State := { s with pwm := s.pwm.write i v }

/-- Reads one element of the state's buffer. -/
def State.channel (s : State) (i : Nat) : Word := s.pwm.read i

/-! ## Registers, trace and pins -/

/-- Writes the three brightness registers (R23). -/
def State.putBright (r g b : Bright) (s : State) : State := { s with bcR := r, bcG := g, bcB := b }

/-- `emit(e)`: appends to the trace (R9, R30). -/
def State.emit (e : Event) (s : State) : State := { s with trace := s.trace ++ [e] }

/-- Drives the clock line and records it (R112). -/
def State.driveSck (b : Bool) (s : State) : State := State.emit (.sck b) { s with sck := pinOfBit b }

/-- Drives the data line and records it (R112). -/
def State.driveSdo (b : Bool) (s : State) : State := State.emit (.sdo b) { s with sdo := pinOfBit b }

/-! ## How an operation ends -/

/-- Taking a fault (R131): `fault` is set and every other piece of state stays, `pc` at the faulting operation. -/
def State.raise (f : FaultRecord) (s : State) : State := { s with fault := some f }

/-- `refuse(reason)` (R136). -/
def State.refuse (r : RefReason) (s : State) : State := { s with refusal := some r }

/-- Completing (R31, R32): the result is delivered and `pc` counts on. -/
def State.complete (r : Result) (s : State) : State := { s with result := r, pc := s.pc + 1 }

/-- Completing, unless a fault was raised on the way (R9: a raise ends the operation). -/
def State.completeUnlessFaulted (r : Result) (s : State) : State :=
  if s.fault.isSome then s else s.complete r

/-- Every host operation executes only when `fault = none` and `refused = false` (R75, R131, R136); one that is started
while a WRITE runs is refused, REF_OVERLAP (R155; log 11). -/
def hostOp (s : State) (body : State → StepOutcome) : StepOutcome :=
  if s.halted then .next s
  else if s.busy then .next (s.refuse .overlap)
  else body s

/-- A buffer operation meets `NO_BUFFER` before any other check (R76, R132, R137). -/
def withBuffer (o : Opcode) (s : State) (body : State → State) : StepOutcome :=
  .next (if s.params.allocOk then body s else s.raise (.noBuffer o))

/-- One set_channel step, the shared step of SETCH and SETLED (R78, R82): below `C` it writes, at `C` it raises
`CH_OVERRUN`, above `C` it does nothing. After a raise it does nothing either (R9). -/
def setChannel (o : Opcode) (j : Nat) (v : Word) (s : State) : State :=
  if s.fault.isSome then s
  else if j < channelCount s.params then s.putChannel j v
  else if j = channelCount s.params then s.raise (.chOverrun o j)
  else s

/-- The three set_channel steps of one LED: red at `3k`, then green at `3k + 1`, then blue at `3k + 2` (R82). -/
def setLed (o : Opcode) (k r g b : Word) (s : State) : State :=
  setChannel o (ledChannel k 2) b (setChannel o (ledChannel k 1) g (setChannel o (ledChannel k 0) r s))

/-! ## Construction and the host's sequence -/

/-- Construction, the block's reset (R146): illegal parameters are refused, REF_CONFIG; otherwise every piece of state
takes its value of R39. `input` is the host's operation sequence. -/
def construct (p : Params) (input : List Byte) : State :=
  if p.wf then { State.initial p with input := input }
  else State.refuse .config { State.initial p with input := input }

/-- The host's sequence moves past an operation that completed; a fault or refusal leaves it at the operation that caused
it (R31). -/
def retire (rest : List Byte) : StepOutcome → StepOutcome
  | .next t => .next (if t.halted then t else { t with input := rest })
  | .fault f => .fault f
  | .refused r => .refused r

end Sys2Proof.Machine
end

