-- ==== Sys2Proof/Machine/ChannelStore.lean ====
section
/-! DEFINITION. The channel state store's operations: SETCH, GETCH, SETLED, GETLED, SETBC, SETBCU (R75 to R92). -/

namespace Sys2Proof.Machine

/-- SETCH: set one channel value (R78). -/
def execSetch (idx val : Word) (s : State) : StepOutcome :=
  hostOp s fun s => withBuffer .setch s fun s =>
    (setChannel .setch idx.toNat val s).completeUnlessFaulted .nothing

/-- GETCH: read one channel value (R80). -/
def execGetch (idx : Word) (s : State) : StepOutcome :=
  hostOp s fun s => withBuffer .getch s fun s =>
    if idx.toNat < channelCount s.params then s.complete (.word (s.channel idx.toNat))
    else s.raise (.rdRange .getch idx)

/-- SETLED: three set_channel steps in order red, green, blue (R82). -/
def execSetled (k r g b : Word) (s : State) : StepOutcome :=
  hostOp s fun s => withBuffer .setled s fun s =>
    (setLed .setled k r g b s).completeUnlessFaulted .nothing

/-- GETLED: read the three channel values of one LED (R84). -/
def execGetled (k : Word) (s : State) : StepOutcome :=
  hostOp s fun s => withBuffer .getled s fun s =>
    if ledChannel k 2 < channelCount s.params then
      s.complete (.triple (s.channel (ledChannel k 0)) (s.channel (ledChannel k 1)) (s.channel (ledChannel k 2)))
    else s.raise (.rdRange .getled k)

/-- SETBC: each operand clamped on its own (R86). -/
def execSetbc (r g b : Byte) (s : State) : StepOutcome :=
  hostOp s fun s =>
    .next ((s.putBright (clampBright r) (clampBright g) (clampBright b)).complete .nothing)

/-- SETBCU: clamped once, given to all three registers (R88). -/
def execSetbcu (x : Byte) (s : State) : StepOutcome :=
  hostOp s fun s =>
    let t := clampBright x
    .next ((s.putBright t t t).complete .nothing)

end Sys2Proof.Machine
end

