-- ==== Sys2Proof/Machine/Initialise.lean ====
section
/-! DEFINITION. Initialisation: BEGIN (R123 to R127). -/

namespace Sys2Proof.Machine

/-- The transport's configuration: pin directions in the software variant, the peripheral in the hardware variant (R124).
No pin level changes. -/
def configureTransport (s : State) : State :=
  match s.params.transport with
  | .softwareBitBang => { s.emit .configPins with pinsConfigured := true }
  | .hardwarePeripheral => s.emit .initPeripheral

/-- What BEGIN records of the draw `TRANSPORT_OK` (R124, R126). -/
def recordInit (t : Bool) (s : State) : State :=
  { s with initStatus := if t then .ok else .transportFail, ready := t }

/-- The next draw of TRANSPORT_OK is another one (log 6). -/
def State.countDraw (s : State) : State := { s with draws := s.draws + 1 }

/-- BEGIN with a channel buffer: the transport is configured, TRANSPORT_OK is drawn, and the draw is recorded and reported
(R124). The draw is a free value, a fresh one for every BEGIN that reaches the transport (log 6). -/
def initialiseTransport (s : State) : State :=
  (recordInit (Config.transportOk s.draws) (configureTransport s).countDraw).complete
    (.bool (Config.transportOk s.draws))

/-- BEGIN without a channel buffer: the allocation failure is reported and the transport is not tried (R124). -/
def reportAllocFail (s : State) : State :=
  State.complete (.bool false) { s with initStatus := .allocFail, ready := false }

/-- BEGIN: initialise the transport and report whether the block can transmit (R124). -/
def execBegin (s : State) : StepOutcome :=
  hostOp s fun s => .next (if s.params.allocOk then initialiseTransport s else reportAllocFail s)

end Sys2Proof.Machine
end

