-- ==== Sys2Proof/Decode.lean ====
section
/-! DEFINITION. The decoder of host operations (R58, R59, R68, R71), the decoder of the wire's command word (R60, R74),
and the encoder of both. -/

namespace Sys2Proof

/-! ## Bytes of a word -/

/-- A u16 from its bytes, most significant first (R58, R62). -/
def beWord (hi lo : Byte) : Word := hi ++ lo

/-- `v[15:8]` (R62). -/
def hiByte (v : Word) : Byte := v.extractLsb' 8 8

/-- `v[7:0]` (R62). -/
def loByte (v : Word) : Byte := v.extractLsb' 0 8

/-- A u32 from its bytes, most significant first (R44). -/
def beCmd (b3 b2 b1 b0 : Byte) : Cmd := b3 ++ b2 ++ b1 ++ b0

/-- The four bytes of a u32 in wire order: shifts 24, 16, 8, 0 (R44). -/
def cmdBytes (w : Cmd) : List Byte :=
  [w.extractLsb' 24 8, w.extractLsb' 16 8, w.extractLsb' 8 8, w.extractLsb' 0 8]

/-! ## The command word -/

/-- The hardwired 6-bit device-select constant (R24). -/
def wrcmdMagic : BitVec 6 := 0x25#6

/-- The hardwired 5-bit mode-flag field: OUTTMG 1, EXTGCK 0, TMGRST 1, DSPRPT 1, BLANK 0 (R24). -/
def modeFlags : BitVec 5 := 0x16#5

/-- `build_cmd`: the shift procedure of R61 (R96). -/
def buildCmd (r g b : Bright) : Cmd :=
  let c := wrcmdMagic.setWidth 32
  let c := (c <<< 5) ||| modeFlags.setWidth 32
  let c := (c <<< 7) ||| r.setWidth 32
  let c := (c <<< 7) ||| g.setWidth 32
  (c <<< 7) ||| b.setWidth 32

/-- An observer's reading of a command word (R74): its three brightness fields, or nothing where bits 31:21 are not
those the block emits (R69). -/
def cmdFields (w : Cmd) : Option (Bright × Bright × Bright) :=
  if w.extractLsb' 21 11 = wrcmdMagic ++ modeFlags then
    some (w.extractLsb' 14 7, w.extractLsb' 7 7, w.extractLsb' 0 7)
  else none

/-- The command word as an instruction: the table's wire row WRCMD. -/
def decodeCmd (w : Cmd) : Option Instr := (cmdFields w).map fun f => .wrcmd f.1 f.2.1 f.2.2

/-- The wire decoder: the command word at the head of a frame, and the bytes after it (R63, R74). -/
def decodeWire : List Byte → Option (Instr × List Byte)
  | b3 :: b2 :: b1 :: b0 :: rest => (decodeCmd (beCmd b3 b2 b1 b0)).map fun i => (i, rest)
  | _ => none

/-! ## Host operations -/

/-- The opcode bytes of R59. -/
def Opcode.byte : Opcode → Byte
  | .begin => 0x01#8
  | .setch => 0x10#8
  | .getch => 0x11#8
  | .setled => 0x20#8
  | .getled => 0x21#8
  | .setbc => 0x30#8
  | .setbcu => 0x31#8
  | .write => 0x40#8

/-- The operation's length in bytes, which the opcode byte alone fixes (R71). -/
def Opcode.length : Opcode → Nat
  | .begin => 1
  | .setch => 5
  | .getch => 3
  | .setled => 9
  | .getled => 3
  | .setbc => 4
  | .setbcu => 2
  | .write => 1

/-- The opcode a byte names; the other 248 values are unassigned (R59, R68). -/
def decodeOpcode (b : Byte) : Option Opcode :=
  if b = 0x01#8 then some .begin
  else if b = 0x10#8 then some .setch
  else if b = 0x11#8 then some .getch
  else if b = 0x20#8 then some .setled
  else if b = 0x21#8 then some .getled
  else if b = 0x30#8 then some .setbc
  else if b = 0x31#8 then some .setbcu
  else if b = 0x40#8 then some .write
  else none

/-- What the decoder finds at the head of the host's remaining bytes (R71). -/
inductive Decoded where
  /-- an operation, and the bytes after it -/
  | op (i : Instr) (rest : List Byte)
  /-- the input has no meaning: REF_OPCODE or REF_TRUNCATED (R136) -/
  | refuse (reason : RefReason)
  /-- no byte is left: every operation of the sequence has been decoded (R158) -/
  | done
  deriving DecidableEq, Repr

/-- The operand fields after the opcode byte, most significant byte first (R58, R65); too few bytes is a truncated
operation (R71). -/
def decodeOperands (o : Opcode) (bs : List Byte) : Decoded :=
  match o with
  | .begin => .op .begin bs
  | .setch =>
    match bs with
    | i1 :: i0 :: v1 :: v0 :: rest => .op (.setch (beWord i1 i0) (beWord v1 v0)) rest
    | _ => .refuse .truncated
  | .getch =>
    match bs with
    | i1 :: i0 :: rest => .op (.getch (beWord i1 i0)) rest
    | _ => .refuse .truncated
  | .setled =>
    match bs with
    | k1 :: k0 :: r1 :: r0 :: g1 :: g0 :: b1 :: b0 :: rest =>
      .op (.setled (beWord k1 k0) (beWord r1 r0) (beWord g1 g0) (beWord b1 b0)) rest
    | _ => .refuse .truncated
  | .getled =>
    match bs with
    | k1 :: k0 :: rest => .op (.getled (beWord k1 k0)) rest
    | _ => .refuse .truncated
  | .setbc =>
    match bs with
    | r :: g :: b :: rest => .op (.setbc r g b) rest
    | _ => .refuse .truncated
  | .setbcu =>
    match bs with
    | x :: rest => .op (.setbcu x) rest
    | _ => .refuse .truncated
  | .write => .op .write bs

/-- The host decoder, total on any byte string (R71): the opcode first, REF_OPCODE, then REF_TRUNCATED (R137). -/
def decode : List Byte → Decoded
  | [] => .done
  | b :: bs =>
    match decodeOpcode b with
    | none => .refuse .opcode
    | some o => decodeOperands o bs

/-- At most `fuel` operations of a byte string, then at most one refusal (R71). -/
def decodeSteps : Nat → List Byte → List Instr × Option RefReason
  | 0, _ => ([], none)
  | fuel + 1, bs =>
    match decode bs with
    | .done => ([], none)
    | .refuse r => ([], some r)
    | .op i rest => (i :: (decodeSteps fuel rest).1, (decodeSteps fuel rest).2)

/-- A whole host program (R58): every operation has at least one byte, so its length is fuel enough. -/
def decodeProgram (bs : List Byte) : List Instr × Option RefReason := decodeSteps bs.length bs

/-! ## The encoder -/

/-- The opcode of a host operation; the wire's command word has none (R59). -/
def Instr.opcode : Instr → Option Opcode
  | .begin => some .begin
  | .setch _ _ => some .setch
  | .getch _ => some .getch
  | .setled _ _ _ _ => some .setled
  | .getled _ => some .getled
  | .setbc _ _ _ => some .setbc
  | .setbcu _ => some .setbcu
  | .write => some .write
  | .wrcmd _ _ _ => none

/-- The operand values of an instruction, in the order of its row (R59, R60). -/
def Instr.operandValues : Instr → List Nat
  | .begin => []
  | .setch idx val => [idx.toNat, val.toNat]
  | .getch idx => [idx.toNat]
  | .setled k r g b => [k.toNat, r.toNat, g.toNat, b.toNat]
  | .getled k => [k.toNat]
  | .setbc r g b => [r.toNat, g.toNat, b.toNat]
  | .setbcu x => [x.toNat]
  | .write => []
  | .wrcmd r g b => [r.toNat, g.toNat, b.toNat]

/-- A u16 operand field: most significant byte first (R58). -/
def encodeWord (v : Word) : List Byte := [hiByte v, loByte v]

/-- The bytes of an instruction: a host operation as R58 and R59 lay it out, a command word in wire order (R44, R60). -/
def encode : Instr → List Byte
  | .begin => [Opcode.begin.byte]
  | .setch idx val => Opcode.setch.byte :: (encodeWord idx ++ encodeWord val)
  | .getch idx => Opcode.getch.byte :: encodeWord idx
  | .setled k r g b => Opcode.setled.byte :: (encodeWord k ++ encodeWord r ++ encodeWord g ++ encodeWord b)
  | .getled k => Opcode.getled.byte :: encodeWord k
  | .setbc r g b => [Opcode.setbc.byte, r, g, b]
  | .setbcu x => [Opcode.setbcu.byte, x]
  | .write => [Opcode.write.byte]
  | .wrcmd r g b => cmdBytes (buildCmd r g b)

/-- The length in bytes of an instruction's encoding (R71, R63). -/
def Instr.length : Instr → Nat
  | .begin => 1
  | .setch _ _ => 5
  | .getch _ => 3
  | .setled _ _ _ _ => 9
  | .getled _ => 3
  | .setbc _ _ _ => 4
  | .setbcu _ => 2
  | .write => 1
  | .wrcmd _ _ _ => 4

/-! ## Words as spec/opcode_table.json numbers their bits -/

/-- Whether a numbered word is the table's 32-bit wire row WRCMD: one word of 32 bits, bits 31:21 fixed (log 21). -/
def tableWire (nbits w : Nat) : Option Instr :=
  if nbits = 32 then decodeCmd (BitVec.ofNat 32 w) else none

/-- Byte `j` of an operation of `nbits` bits whose first byte is bits 7..0, the second bits 15..8, and so on;
bits above `nbits` are 0. -/
def tableByte (nbits w j : Nat) : Byte :=
  if 8 * j < nbits then BitVec.ofNat 8 (w / 2 ^ (8 * j)) else 0#8

/-- The bytes of a host operation of the table, in the order the host issues them, as many as its opcode's length. -/
def tableBytes (nbits w : Nat) : List Byte :=
  match decodeOpcode (tableByte nbits w 0) with
  | some o => (List.range o.length).map (tableByte nbits w)
  | none => (List.range (nbits / 8)).map (tableByte nbits w)

/-- The instruction the decoder reads from a word numbered as spec/opcode_table.json numbers it: the wire row's word is
read by the wire decoder, any other by the host decoder. -/
def decodeTableWord (nbits w : Nat) : Option Instr :=
  match tableWire nbits w with
  | some i => some i
  | none =>
    match decode (tableBytes nbits w) with
    | .op i _ => some i
    | .refuse _ => none
    | .done => none

end Sys2Proof
end

