-- ==== Sys2Proof/Machine/Transmit.lean ====
section
/-! DEFINITION. The frame encoder, the serializer and the chain transmitter: WRITE, and the command word WRCMD it sends at
the head of each frame (R93 to R122). -/

namespace Sys2Proof.Machine

/-! ## One byte (R110, R112) -/

/-- One bit of a bit-banged byte: clock low, data to bit `k`, clock high (R112). -/
def driveBit (x : Byte) (k : Nat) (s : State) : State :=
  ((s.driveSck false).driveSdo (x.getLsbD k)).driveSck true

/-- The serializer is at bit `k` of its byte (R36). -/
def State.atBit (k : Nat) (s : State) : State :=
  { s with position := s.position.map fun p => { p with bit := k } }

/-- Bits `k` down to 0 of a byte (R112). -/
def bitbangFrom (x : Byte) : Nat → State → State
  | 0, s => driveBit x 0 s
  | k + 1, s => bitbangFrom x k ((driveBit x (k + 1) s).atBit k)

/-- The serializer moves to the next byte of the frame (R36). -/
def State.nextByte (s : State) : State :=
  { s with position := s.position.map fun p => { device := p.device, byte := p.byte + 1, bit := 7 } }

/-- What is left of sending byte `x` from bit `k` on: at bit 7 the `Byte` event is still to come, and under the software
transport bits `k` down to 0 (R112); the hardware transport has no bits of its own (R116). -/
def finishByte (x : Byte) (k : Nat) (s : State) : State :=
  let s := if k = 7 then s.emit (.byte x) else s
  match s.params.transport with
  | .softwareBitBang => (bitbangFrom x k s).nextByte
  | .hardwarePeripheral => s.nextByte

/-- `transfer(x)` (R93, R110). -/
def transfer (x : Byte) (s : State) : State := finishByte x 7 s

/-! ## One frame (R63, R97 to R100) -/

/-- The serializer is at the head of device `n`'s frame (R36). -/
def State.atFrame (n : Nat) (s : State) : State :=
  { s with position := some { device := n, byte := 0, bit := 7 } }

/-- The command word: shifts 24, 16, 8, 0, most significant byte first (R93). -/
def sendCommand (cmd : Cmd) (s : State) : State :=
  [24, 16, 8, 0].foldl (fun s shift => transfer (cmd.extractLsb' shift 8) s) s

/-- One channel value of device `n`, most significant byte first (R62, R93). -/
def sendChannel (n : Nat) (s : State) (c : Nat) : State :=
  let v := s.channel (deviceChannel n c)
  transfer (loByte v) (transfer (hiByte v) s)

/-- The channels of a device in the order they are sent: 11 down to 0 (R99). -/
def channelOrder : List Nat := [11, 10, 9, 8, 7, 6, 5, 4, 3, 2, 1, 0]

/-- Device `n`'s frame: the command word, then its channels in descending order (R93, R99). -/
def sendFrame (cmd : Cmd) (s : State) (n : Nat) : State :=
  channelOrder.foldl (sendChannel n) (sendCommand cmd (s.atFrame n))

/-- All frames, device 0 first (R100). -/
def sendFrames (cmd : Cmd) (s : State) : State :=
  (List.range s.params.chainLength).foldl (sendFrame cmd) s

/-! ## The brackets (R102) -/

/-- Steps 2 and 3: the critical section, which suppresses the host's interrupts, then the transaction. -/
def openTransmission (s : State) : State :=
  let s := { s.emit .enterCritical with inCritical := true, interruptsEnabled := false }
  { s.emit .beginTxn with txnHeld := true }

/-- Steps 5 to 7: the settle delay, the end of the transaction, and the end of the critical section, which enables the
host's interrupts whatever they were (R118, R121); then WRITE completes and the position is no longer defined. -/
def closeTransmission (s : State) : State :=
  let s := s.emit (.delay (settleMicros s.params))
  let s := { s.emit .endTxn with txnHeld := false }
  let s := { s.emit .exitCritical with inCritical := false, interruptsEnabled := true }
  { s with position := none }.complete .nothing

/-- WRITE's transmission, all of it (R93). -/
def transmit (s : State) : State :=
  let cmd := buildCmd s.bcR s.bcG s.bcB
  closeTransmission (sendFrames cmd (openTransmission s))

/-- WRITE: encode the state and transmit it to the whole chain (R93, R94). Without a buffer, which `ready` rules out
(R94), the model stops (log 16). -/
def execWrite (s : State) : StepOutcome :=
  hostOp s fun s =>
    if s.ready then
      if s.params.allocOk then .next (transmit s) else .fault .missingBuffer
    else .next (s.raise (.notReady .write s.initStatus))

/-! ## A WRITE in progress (R36; log 10) -/

/-- Inside the critical section and the transaction, the serializer stands at the head of a device's frame (R36, R102). -/
def State.atFrameHead (s : State) : Bool :=
  s.inCritical && s.txnHeld &&
    match s.position with
    | some p => p.legal s.params && decide (p.byte = 0) && decide (p.bit = 7)
    | none => false

/-- WRCMD: at the head of a device's frame the serializer sends the command word with the given brightness fields (R96,
R97). Anywhere else the word can only come from a host, whose first byte 96 is an unassigned opcode (R68; log 9). -/
def execWrcmd (r g b : Bright) (s : State) : StepOutcome :=
  .next <|
    if s.halted then s
    else if s.atFrameHead then sendCommand (buildCmd r g b) s
    else s.refuse .opcode

/-- Byte `b` of device `n`'s frame (R63). -/
def frameByte (s : State) (n b : Nat) : Byte :=
  if b < 4 then (buildCmd s.bcR s.bcG s.bcB).extractLsb' (24 - 8 * b) 8
  else
    let v := s.channel (deviceChannel n (11 - (b - 4) / 2))
    if b % 2 = 0 then hiByte v else loByte v

/-- The host's sequence moves past a one-byte operation (R31, R71). -/
def State.dropOpcode (s : State) : State := { s with input := s.input.drop 1 }

/-- After byte `p.byte` of device `p.device`: the same frame goes on, or the next device's begins, or the transmission
closes and the host's sequence moves past the WRITE (R93, R100). -/
def afterByte (p : Position) (s : State) : State :=
  if p.byte + 1 < 28 then s
  else if p.device + 1 < s.params.chainLength then s.atFrame (p.device + 1)
  else (closeTransmission s).dropOpcode

/-- One turn of the serializer in the middle of a WRITE: the rest of the byte it is at (R36, R112). -/
def serializerTurn (p : Position) (s : State) : StepOutcome :=
  if !s.params.allocOk then .fault .missingBuffer
  else if s.inCritical && s.txnHeld && p.legal s.params then
    .next (afterByte p (finishByte (frameByte s p.device p.byte) p.bit s))
  else .fault .badPosition

end Sys2Proof.Machine
end

