-- ==== Sys2Proof/Machine/Dispatch.lean ====
section
/-! DEFINITION. The dispatch: one arm per instruction, each one direct call of its meaning. -/

namespace Sys2Proof.Machine

def exec (i : Instr) (s : State) : Host.Outcome State Fault Refusal :=
  match i with
  | .begin => Sys2Proof.Machine.execBegin s
  | .setch idx val => Sys2Proof.Machine.execSetch idx val s
  | .getch idx => Sys2Proof.Machine.execGetch idx s
  | .setled k r g b => Sys2Proof.Machine.execSetled k r g b s
  | .getled k => Sys2Proof.Machine.execGetled k s
  | .setbc r g b => Sys2Proof.Machine.execSetbc r g b s
  | .setbcu x => Sys2Proof.Machine.execSetbcu x s
  | .write => Sys2Proof.Machine.execWrite s
  | .wrcmd bcR bcG bcB => Sys2Proof.Machine.execWrcmd bcR bcG bcB s

end Sys2Proof.Machine
end

