-- ==== Sys2Proof/Machine/Fetch.lean ====
section
/-! DEFINITION. What the machine does next: the serializer's turn while a WRITE runs, else the host's next operation
(R12, R31, R71). -/

namespace Sys2Proof.Machine

/-- What the next step is about. -/
inductive Action where
  /-- a fault or refusal stands: nothing executes (R131, R136) -/
  | halted
  /-- the host's sequence is at its end: the machine waits for the host (R158; log 8) -/
  | idle
  /-- the host's next bytes have no meaning (R136) -/
  | refuse (reason : RefReason)
  /-- a host operation, and the bytes after it -/
  | host (i : Instr) (rest : List Byte)
  /-- the serializer is at the head of a frame: it sends a command word -/
  | wire (i : Instr)
  /-- the serializer is inside a frame -/
  | serialize (p : Position)
  deriving DecidableEq, Repr

/-- The next action. The serializer at a frame's head sends the command word of the brightness registers (R96, R97). -/
def nextAction (s : State) : Action :=
  if s.halted then .halted
  else
    match s.position with
    | some p => if s.atFrameHead then .wire (.wrcmd s.bcR s.bcG s.bcB) else .serialize p
    | none =>
      match decode s.input with
      | .done => .idle
      | .refuse r => .refuse r
      | .op i rest => .host i rest

/-- The state in which the serializer, inside a WRITE, is about to send a given command word: the brightness registers
hold its fields and the serializer stands at the head of device 0's frame. -/
def State.aboutToSend (r g b : Bright) (s : State) : State :=
  { s with
    bcR := r, bcG := g, bcB := b, inCritical := true, txnHeld := true, interruptsEnabled := false
    position := some { device := 0, byte := 0, bit := 7 }, input := encode .write }

/-- The state with an instruction, numbered as the opcode table numbers its bits, as the very next thing to run: a host
operation at the head of the host's sequence; the wire's command word at the serializer (log 7, log 9, log 21). -/
def placeInstr (s : State) (nbits w : Nat) : State :=
  match tableWire nbits w with
  | some i =>
    match i with
    | .wrcmd r g b => s.aboutToSend r g b
    | .begin => s
    | .setch _ _ => s
    | .getch _ => s
    | .setled _ _ _ _ => s
    | .getled _ => s
    | .setbc _ _ _ => s
    | .setbcu _ => s
    | .write => s
  | none => { s with input := tableBytes nbits w }

end Sys2Proof.Machine
end

