-- ==== Sys2Proof/Machine/Step.lean ====
section
/-! DEFINITION. One step of the machine: a whole host operation (R12, R31), or a turn of the serializer where a WRITE is
in progress (R36). -/

namespace Sys2Proof.Machine

/-- The step. -/
def step (s : State) : Host.Outcome State Fault Refusal :=
  match nextAction s with
  | .halted => .next s
  | .idle => .next s
  | .refuse r => .next (s.refuse r)
  | .host i rest => retire rest (exec i s)
  | .wire i => exec i s
  | .serialize p => serializerTurn p s

/-- The state whose next step runs the given instruction of the opcode table. -/
def State.withFetchWord (s : State) (nbits w : Nat) : State := placeInstr s nbits w

end Sys2Proof.Machine
end

