-- ==== Sys2Proof/Machine/Assembler.lean ====
section
/-! DEFINITION. The assembler syntax of R72: one operation per line, the mnemonic, then its operands separated by commas;
a decimal or 0x hexadecimal literal; a semicolon starts a comment. Text is a list of characters. Blanks are spaces and
tabs, mnemonics are capitals, and a line with no operation assembles to nothing (log 22). -/

namespace Sys2Proof.Machine

/-- Why a line is an assembly error, not an operation (R72). -/
inductive AsmError where
  | unknownMnemonic
  | operandCount
  | badLiteral
  | operandTooLarge
  deriving DecidableEq, Repr

/-- A space or tab. -/
def isBlank (c : Char) : Bool := c == ' ' || c == '\t'

/-- The line without its comment (R72). -/
def stripComment : List Char → List Char
  | [] => []
  | c :: cs => if c == ';' then [] else c :: stripComment cs

/-- Without the blanks in front. -/
def trimLeft : List Char → List Char
  | [] => []
  | c :: cs => if isBlank c then trimLeft cs else c :: cs

/-- Without the blanks at either end. -/
def trim (cs : List Char) : List Char := (trimLeft (trimLeft cs).reverse).reverse

/-- The characters up to the first blank, and those from it on. -/
def splitAtBlank : List Char → List Char × List Char
  | [] => ([], [])
  | c :: cs => if isBlank c then ([], c :: cs) else (c :: (splitAtBlank cs).1, (splitAtBlank cs).2)

/-- The pieces between separators; always at least one. -/
def splitOnChar (sep : Char) : List Char → List (List Char)
  | [] => [[]]
  | c :: cs =>
    if c == sep then [] :: splitOnChar sep cs
    else
      match splitOnChar sep cs with
      | [] => [[c]]
      | p :: ps => (c :: p) :: ps

/-- The value of a digit, at most 15. -/
def digitValue (c : Char) : Option Nat :=
  if 48 ≤ c.toNat ∧ c.toNat ≤ 57 then some (c.toNat - 48)
  else if 65 ≤ c.toNat ∧ c.toNat ≤ 70 then some (c.toNat - 55)
  else if 97 ≤ c.toNat ∧ c.toNat ≤ 102 then some (c.toNat - 87)
  else none

/-- A number from its digits in a base, most significant first, onto an accumulator. -/
def digitsValue (base : Nat) : Nat → List Char → Option Nat
  | acc, [] => some acc
  | acc, c :: cs =>
    match digitValue c with
    | some d => if d < base then digitsValue base (acc * base + d) cs else none
    | none => none

/-- A decimal or `0x` hexadecimal literal (R72). -/
def parseLiteral (cs : List Char) : Option Nat :=
  match cs with
  | [] => none
  | '0' :: 'x' :: ds => if ds.isEmpty then none else digitsValue 16 0 ds
  | c :: ds => digitsValue 10 0 (c :: ds)

/-- Every literal of an operand list, or nothing where one is no literal. -/
def parseLiterals : List (List Char) → Option (List Nat)
  | [] => some []
  | p :: ps =>
    match parseLiteral (trim p), parseLiterals ps with
    | some v, some vs => some (v :: vs)
    | _, _ => none

/-- The mnemonics of R59. -/
def Opcode.name : Opcode → List Char
  | .begin => ['B', 'E', 'G', 'I', 'N']
  | .setch => ['S', 'E', 'T', 'C', 'H']
  | .getch => ['G', 'E', 'T', 'C', 'H']
  | .setled => ['S', 'E', 'T', 'L', 'E', 'D']
  | .getled => ['G', 'E', 'T', 'L', 'E', 'D']
  | .setbc => ['S', 'E', 'T', 'B', 'C']
  | .setbcu => ['S', 'E', 'T', 'B', 'C', 'U']
  | .write => ['W', 'R', 'I', 'T', 'E']

/-- The eight host operations. -/
def opcodes : List Opcode := [.begin, .setch, .getch, .setled, .getled, .setbc, .setbcu, .write]

/-- The operation a mnemonic names. -/
def parseMnemonic (cs : List Char) : Option Opcode := opcodes.find? fun o => Opcode.name o == cs

/-- An operation of a line whose operands fit (R59, R65). -/
def instrOf (o : Opcode) (vs : List Nat) : Option Instr :=
  match o, vs with
  | .begin, [] => some .begin
  | .setch, [i, v] => some (.setch (BitVec.ofNat 16 i) (BitVec.ofNat 16 v))
  | .getch, [i] => some (.getch (BitVec.ofNat 16 i))
  | .setled, [k, r, g, b] =>
    some (.setled (BitVec.ofNat 16 k) (BitVec.ofNat 16 r) (BitVec.ofNat 16 g) (BitVec.ofNat 16 b))
  | .getled, [k] => some (.getled (BitVec.ofNat 16 k))
  | .setbc, [r, g, b] => some (.setbc (BitVec.ofNat 8 r) (BitVec.ofNat 8 g) (BitVec.ofNat 8 b))
  | .setbcu, [x] => some (.setbcu (BitVec.ofNat 8 x))
  | .write, [] => some .write
  | _, _ => none

/-- A read line as an operation; an operand literal that does not fit its field is an error (R72). -/
def assembleParsed (l : AsmLine) : Except AsmError Instr :=
  match instrOf l.mnemonic l.operands with
  | none => .error .operandCount
  | some i => if l.wf then .ok i else .error .operandTooLarge

/-- The operand list of a line: no text is no operand. -/
def operandPieces (cs : List Char) : List (List Char) := if (trim cs).isEmpty then [] else splitOnChar ',' cs

/-- One line of text (R72). -/
def assembleLine (text : List Char) : Except AsmError (Option Instr) :=
  let cs := trim (stripComment text)
  if cs.isEmpty then .ok none
  else
    match parseMnemonic (splitAtBlank cs).1 with
    | none => .error .unknownMnemonic
    | some o =>
      match parseLiterals (operandPieces (splitAtBlank cs).2) with
      | none => .error .badLiteral
      | some vs =>
        match assembleParsed { mnemonic := o, operands := vs } with
        | .ok i => .ok (some i)
        | .error e => .error e

/-- Lines of text, in order. -/
def assembleLines : List (List Char) → Except AsmError (List Instr)
  | [] => .ok []
  | l :: ls =>
    match assembleLine l, assembleLines ls with
    | .ok none, .ok is => .ok is
    | .ok (some i), .ok is => .ok (i :: is)
    | .error e, _ => .error e
    | .ok _, .error e => .error e

/-- A program text: its lines' operations (R72). -/
def assemble (text : List Char) : Except AsmError (List Instr) := assembleLines (splitOnChar '\n' text)

/-- A program's bytes: a concatenation of operations with no padding (R58). -/
def encodeProgram (is : List Instr) : List Byte := is.flatMap encode

/-! ## Writing an operation as a line -/

/-- A hexadecimal digit. -/
def hexDigit (d : Nat) : Char := Char.ofNat (if d < 10 then 48 + d else 55 + d)

/-- A literal of `n` hexadecimal digits. -/
def hexDigits : Nat → Nat → List Char
  | 0, _ => []
  | n + 1, v => hexDigits n (v / 16) ++ [hexDigit (v % 16)]

/-- `0x` and four digits. -/
def wordLiteral (v : Word) : List Char := ['0', 'x'] ++ hexDigits 4 v.toNat

/-- `0x` and two digits. -/
def byteLiteral (v : Byte) : List Char := ['0', 'x'] ++ hexDigits 2 v.toNat

/-- A mnemonic and its operands as R72 writes them. -/
def lineOf (o : Opcode) : List (List Char) → List Char
  | [] => Opcode.name o
  | p :: ps => Opcode.name o ++ [' '] ++ p ++ ps.flatMap fun q => [',', ' '] ++ q

/-- A host operation as a line of text; the wire's command word has none (R72). -/
def disassemble : Instr → Option (List Char)
  | .begin => some (lineOf .begin [])
  | .setch idx val => some (lineOf .setch [wordLiteral idx, wordLiteral val])
  | .getch idx => some (lineOf .getch [wordLiteral idx])
  | .setled k r g b => some (lineOf .setled [wordLiteral k, wordLiteral r, wordLiteral g, wordLiteral b])
  | .getled k => some (lineOf .getled [wordLiteral k])
  | .setbc r g b => some (lineOf .setbc [byteLiteral r, byteLiteral g, byteLiteral b])
  | .setbcu x => some (lineOf .setbcu [byteLiteral x])
  | .write => some (lineOf .write [])
  | .wrcmd _ _ _ => none

end Sys2Proof.Machine
end

