-- ==== Sys2Proof/Machine/Wire.lean ====
section
/-! DEFINITION. The wire as an outside observer sees it: the frame and the chain stream (R63, R64), the events of a
transmission (R103), and what a receiver reads back from them (R74, R113). -/

namespace Sys2Proof.Machine

/-! ## The wire format (R63, R64, R103) -/

/-- The 28 bytes of device `n`'s frame (R63): the command word, then channels 11 down to 0. -/
def deviceFrame (s : State) (n : Nat) : List Byte :=
  cmdBytes (buildCmd s.bcR s.bcG s.bcB) ++ channelOrder.flatMap fun c => encodeWord (s.channel (deviceChannel n c))

/-- The chain stream: `frame(0) ++ frame(1) ++ ... ++ frame(N-1)` (R64). -/
def chainStream (s : State) : List Byte := (List.range s.params.chainLength).flatMap (deviceFrame s)

/-- The pin events of one bit (R112). -/
def bitEvents (b : Bool) : List Event := [.sck false, .sdo b, .sck true]

/-- The bits of a byte in wire order, most significant first (R45). -/
def msbFirst (x : Byte) : List Bool := [7, 6, 5, 4, 3, 2, 1, 0].map x.getLsbD

/-- The events of one byte: `Byte(x)`, and its 24 pin events under the software transport (R112, R116). -/
def transferEvents (t : Transport) (x : Byte) : List Event :=
  .byte x ::
    match t with
    | .softwareBitBang => (msbFirst x).flatMap bitEvents
    | .hardwarePeripheral => []

/-- The complete event sequence of a WRITE (R103). -/
def transmissionEvents (s : State) : List Event :=
  [.enterCritical, .beginTxn] ++ (chainStream s).flatMap (transferEvents s.params.transport) ++
    [.delay (settleMicros s.params), .endTxn, .exitCritical]

/-! ## What an observer reads -/

/-- The byte of a `Byte` event. -/
def Event.asByte : Event → Option Byte
  | .byte v => some v
  | .enterCritical => none
  | .beginTxn => none
  | .delay _ => none
  | .endTxn => none
  | .exitCritical => none
  | .sck _ => none
  | .sdo _ => none
  | .configPins => none
  | .initPeripheral => none

/-- The byte events of a trace, in order (R101). -/
def byteEvents (es : List Event) : List Byte := es.filterMap Event.asByte

/-- A pin event (R10). -/
def Event.isPin : Event → Bool
  | .sck _ => true
  | .sdo _ => true
  | .byte _ => false
  | .enterCritical => false
  | .beginTxn => false
  | .delay _ => false
  | .endTxn => false
  | .exitCritical => false
  | .configPins => false
  | .initPeripheral => false

/-- The levels a receiver samples: the data line at each rising clock edge, that is at each `SCK(1)` (R113).
The first argument is the data line's level before the events. -/
def sampledLevels : PinLevel → List Event → List PinLevel
  | _, [] => []
  | _, .sdo b :: es => sampledLevels (pinOfBit b) es
  | l, .sck true :: es => l :: sampledLevels l es
  | l, .sck false :: es => sampledLevels l es
  | l, .byte _ :: es => sampledLevels l es
  | l, .enterCritical :: es => sampledLevels l es
  | l, .beginTxn :: es => sampledLevels l es
  | l, .delay _ :: es => sampledLevels l es
  | l, .endTxn :: es => sampledLevels l es
  | l, .exitCritical :: es => sampledLevels l es
  | l, .configPins :: es => sampledLevels l es
  | l, .initPeripheral :: es => sampledLevels l es

/-- What a receiver recovers from one frame (R74): the brightness fields and the 12 channel values, channel 0 first. -/
structure FrameValues where
  bcR : Bright
  bcG : Bright
  bcB : Bright
  channels : List Word
  deriving DecidableEq, Repr

/-- Two-byte values, most significant byte first (R62). -/
def wordPairs : List Byte → List Word
  | hi :: lo :: bs => beWord hi lo :: wordPairs bs
  | _ => []

/-- Wire decoding of one 28-byte frame (R74); a word whose bits 31:21 this block never emits is not its output (R69). -/
def decodeFrame : List Byte → Option FrameValues
  | b3 :: b2 :: b1 :: b0 :: rest =>
    if rest.length = 24 then
      (cmdFields (beCmd b3 b2 b1 b0)).map fun f =>
        { bcR := f.1, bcG := f.2.1, bcB := f.2.2, channels := (wordPairs rest).reverse }
    else none
  | _ => none

/-- Wire decoding of the stream of a chain of `n` devices (R64, R74). -/
def decodeStream : Nat → List Byte → Option (List FrameValues)
  | 0, bs => if bs.isEmpty then some [] else none
  | n + 1, bs =>
    match decodeFrame (bs.take 28), decodeStream n (bs.drop 28) with
    | some f, some fs => some (f :: fs)
    | _, _ => none

/-- The values of device `n` as the block holds them. -/
def deviceValues (s : State) (n : Nat) : FrameValues :=
  { bcR := s.bcR, bcG := s.bcG, bcB := s.bcB
    channels := (List.range 12).map fun c => s.channel (deviceChannel n c) }

/-! ## The open parameters (R6) -/

/-- Which physical chip of a chain of `chainLength` devices receives the frame of buffer device `n`: the OPEN parameter
`CHAIN_POSITION` (R120; log 17). -/
def chipOf (chainLength n : Nat) : Option Nat :=
  match chainLength with
  | 0 => none
  | m + 1 => if h : n < m + 1 then some (Config.chainPosition m ⟨n, h⟩).val else none

/-- The serial peripheral's settings: what `BeginTxn` applies under the hardware transport (R116). -/
structure SpiSettings where
  msbFirst : Bool
  mode : Nat
  clockHz : Nat
  deriving DecidableEq, Repr

/-- The settings in force: MSB first, mode 0, `F_SCK`, from `BeginTxn` to `EndTxn` under the hardware transport (R116);
none under the software transport, where the transaction changes no pin (R115). -/
def spiSettings (s : State) : Option SpiSettings :=
  if s.txnHeld then
    match s.params.transport with
    | .softwareBitBang => none
    | .hardwarePeripheral => some { msbFirst := true, mode := 0, clockHz := Config.fSck }
  else none

end Sys2Proof.Machine
end

