-- ==== Sys2Proof/Safety.lean ====
section
/-! DEFINITION. What the claims are stated in: states the machine can be in (`State.Inv`), a successful end of a run and its
observation (R158), and what an instruction may change (the frames). -/

namespace Sys2Proof.Machine

/-! ## The invariant -/

/-- The invariant of the machine, from the rules that relate its state:
the buffer is canonical and holds no element at or beyond `C` (R21, R41), and does not exist without an allocation (R21);
parameters break R6 only under the REF_CONFIG refusal (R146); `ready` is true exactly when the most recent BEGIN returned
true (R26), and then the buffer exists (R94) and under the software transport the pins are configured (R124);
ALLOC_FAIL is recorded only without an allocation (R27); the critical section, the transaction and the serializer
position come and go together (R33, R34, R36), in a WRITE that was ready, with the host's interrupts off (R141), at a
position in R36's ranges; the hardware transport has no pin state (R35); at most one of fault and refusal stands (R137).
-/
abbrev State.Inv (s : State) : Prop :=
  s.pwm.wf = true ∧
  s.pwm.below (channelCount s.params) = true ∧
  (s.params.allocOk = false → s.pwm = []) ∧
  (s.params.wf = false → s.refusal = some .config) ∧
  (s.ready = true ↔ s.initStatus = .ok) ∧
  (s.ready = true → s.params.allocOk = true) ∧
  (s.ready = true → s.params.transport = .softwareBitBang → s.pinsConfigured = true) ∧
  (s.initStatus = .allocFail → s.params.allocOk = false) ∧
  (s.inCritical = s.txnHeld) ∧
  (s.inCritical = s.position.isSome) ∧
  (s.inCritical = true → s.ready = true ∧ s.interruptsEnabled = false) ∧
  (∀ p ∈ s.position, p.legal s.params = true) ∧
  (s.params.transport = .hardwarePeripheral →
    s.sck = .unknown ∧ s.sdo = .unknown ∧ s.pinsConfigured = false) ∧
  (s.fault = none ∨ s.refusal = none)

/-! ## Frames: what may differ between two states -/

/-- Only the result and `pc` differ. -/
abbrev State.SameButResult (s t : State) : Prop := t = { s with result := t.result, pc := t.pc }

/-- Only the channel buffer, the result and `pc` differ. -/
abbrev State.SameButBuffer (s t : State) : Prop := t = { s with pwm := t.pwm, result := t.result, pc := t.pc }

/-- Only the brightness registers, the result and `pc` differ. -/
abbrev State.SameButBright (s t : State) : Prop :=
  t = { s with bcR := t.bcR, bcG := t.bcG, bcB := t.bcB, result := t.result, pc := t.pc }

/-- Only what BEGIN writes differs (R124): the trace, `pins_configured`, `ready`, `init_status`, the result, `pc` and the
model's draw counter. -/
abbrev State.SameButInit (s t : State) : Prop :=
  t = { s with trace := t.trace, pinsConfigured := t.pinsConfigured, ready := t.ready, initStatus := t.initStatus,
               result := t.result, pc := t.pc, draws := t.draws }

/-- Only what WRITE writes differs (R93): the trace, the pins, the result, `pc` and the host's interrupt state. -/
abbrev State.SameButWire (s t : State) : Prop :=
  t = { s with trace := t.trace, sck := t.sck, sdo := t.sdo, result := t.result, pc := t.pc,
               interruptsEnabled := t.interruptsEnabled }

/-- The state in which a host operation executes: no fault, no refusal, no WRITE in progress (R75, R131, R136, R155). -/
abbrev State.Live (s : State) : Prop := s.halted = false ∧ s.busy = false

/-! ## Runs (R158) -/

/-- A run has ended successfully: every operation of the host's sequence has executed, with `fault = none` and
`refused = false` (R158). -/
abbrev State.endedWell (s : State) : Prop := s.input = [] ∧ s.halted = false ∧ s.busy = false

/-- Whether the host's sequence still has something to run. -/
def State.running (s : State) : Bool := !s.halted && (s.busy || !s.input.isEmpty)

/-- At most `fuel` steps, with the result of every operation that completed, in order (R158). -/
def runFor : Nat → State → State × List Result
  | 0, s => (s, [])
  | fuel + 1, s =>
    if s.running then
      match step s with
      | .next t => ((runFor fuel t).1, (if t.pc = s.pc + 1 then [t.result] else []) ++ (runFor fuel t).2)
      | .fault _ => (s, [])
      | .refused _ => (s, [])
    else (s, [])

/-- The observation of a run (R158). -/
structure Observation where
  trace : List Event
  results : List Result
  pwm : Memory
  bcR : Bright
  bcG : Bright
  bcB : Bright
  ready : Bool
  deriving DecidableEq, Repr

/-- The observation at a run's end, where it ended successfully (R158). Every step of a whole operation uses at least one
byte of the sequence, so the sequence's length is fuel enough. -/
def observe (s : State) : Option Observation :=
  let r := runFor s.input.length s
  if r.1.endedWell then
    some { trace := r.1.trace, results := r.2, pwm := r.1.pwm, bcR := r.1.bcR, bcG := r.1.bcG, bcB := r.1.bcB,
           ready := r.1.ready }
  else none

end Sys2Proof.Machine
end

