-- ==== Sys2Proof/Certificates/Slice0/Obligations.lean ====
section
/-! DEFINITION. The statements about the machine, each a closed proposition; every one holds for every chain length, both
transports and both allocation outcomes unless a hypothesis names one. -/

open Sys2Proof Sys2Proof.Machine

/-! ## Encodings -/

/-- Every operand of every host operation, at every value, survives encoding and decoding (R58, R59, R65, R71), whatever
bytes follow; the wire's command word does under the wire decoder (R60, R74). -/
def Obligations.EncodedInstructionDecodes : Prop :=
  ∀ rest : List Byte,
    (∀ i : Instr, i.hostIssued = true → decode (encode i ++ rest) = .op i rest) ∧
    (∀ r g b : Bright, decodeWire (encode (.wrcmd r g b) ++ rest) = some (.wrcmd r g b, rest))

/-- A host operation has exactly one encoding: what the decoder reads is what the encoder writes, and never the wire's
command word (R58, R59). -/
def Obligations.DecodedBytesAreTheEncoding : Prop :=
  ∀ (bs rest : List Byte) (i : Instr), decode bs = .op i rest → bs = encode i ++ rest ∧ i.hostIssued = true

/-- A host program is a concatenation of operations with no padding, and decodes to those operations with no refusal
(R58, R71). -/
def Obligations.EncodedProgramDecodes : Prop :=
  ∀ is : List Instr, (∀ i ∈ is, i.hostIssued = true) → decodeProgram (encodeProgram is) = (is, none)

/-- Words written out from R59 and R60: `SETLED 1, 0x1111, 0x2222, 0x3333`; `SETBC 10, 200, 30`; BEGIN; WRITE; and the
command word of brightness (1, 2, 3). -/
def Obligations.SampleWordsDecode : Prop :=
  decode [0x20#8, 0x00#8, 0x01#8, 0x11#8, 0x11#8, 0x22#8, 0x22#8, 0x33#8, 0x33#8] =
      .op (.setled 0x0001#16 0x1111#16 0x2222#16 0x3333#16) [] ∧
  decode [0x30#8, 0x0A#8, 0xC8#8, 0x1E#8] = .op (.setbc 10#8 200#8 30#8) [] ∧
  decode [0x01#8] = .op .begin [] ∧
  decode [0x40#8] = .op .write [] ∧
  decodeWire [0x96#8, 0xC0#8, 0x41#8, 0x03#8] = some (.wrcmd 1#7 2#7 3#7, [])

/-- The opcode bytes of R59; every other of the 256 is unassigned: decoding one sets the refusal mark REF_OPCODE and
executes nothing (R68, R136). -/
def Obligations.UnassignedOpcodeIsRefused : Prop :=
  ∀ (b : Byte) (rest : List Byte),
    b ∉ [0x01#8, 0x10#8, 0x11#8, 0x20#8, 0x21#8, 0x30#8, 0x31#8, 0x40#8] →
      decode (b :: rest) = .refuse .opcode ∧
      ∀ s : State, s.Live → s.input = b :: rest → step s = .next { s with refusal := some .opcode }

/-- A host operation cut short by one byte or more, but not to nothing, is refused as truncated (R71, R136): the mark is
set and nothing executes. -/
def Obligations.TruncatedOperationIsRefused : Prop :=
  ∀ (i : Instr) (n : Nat), i.hostIssued = true → 0 < n → n < i.length →
    decode ((encode i).take n) = .refuse .truncated ∧
    ∀ s : State, s.Live → s.input = (encode i).take n → step s = .next { s with refusal := some .truncated }

/-- The command word's layout, field by field, its shift procedure and its closed forms (R60, R61, R96). -/
def Obligations.CommandWordLayout : Prop :=
  ∀ r g b : Bright,
    (buildCmd r g b).extractLsb' 26 6 = 0x25#6 ∧
    (buildCmd r g b).getLsbD 25 = true ∧
    (buildCmd r g b).getLsbD 24 = false ∧
    (buildCmd r g b).getLsbD 23 = true ∧
    (buildCmd r g b).getLsbD 22 = true ∧
    (buildCmd r g b).getLsbD 21 = false ∧
    (buildCmd r g b).extractLsb' 14 7 = r ∧
    (buildCmd r g b).extractLsb' 7 7 = g ∧
    (buildCmd r g b).extractLsb' 0 7 = b ∧
    (buildCmd r g b).extractLsb' 21 11 = 0x4B6#11 ∧
    (buildCmd r g b).extractLsb' 24 8 = 0x96#8 ∧
    (buildCmd r g b).toNat = (((((((0x25 <<< 5) ||| 0x16) <<< 7) ||| r.toNat) <<< 7) ||| g.toNat) <<< 7) ||| b.toNat ∧
    (buildCmd r g b).toNat = (0x25 <<< 26) ||| (0x16 <<< 21) ||| (r.toNat <<< 14) ||| (g.toNat <<< 7) ||| b.toNat ∧
    (buildCmd r g b).toNat = 0x96C00000 ||| (r.toNat <<< 14) ||| (g.toNat <<< 7) ||| b.toNat

/-- A host operation written as a line of assembler text assembles to itself (R72; the text's form is log 22). -/
def Obligations.AssembledLineIsTheOperation : Prop :=
  ∀ (i : Instr) (text : List Char), disassemble i = some text → assembleLine text = .ok (some i)

/-- An operand literal that does not fit its field is an assembly error, not an operation; one that fits is taken at its
value (R72). -/
def Obligations.OperandLiteralMustFit : Prop :=
  ∀ o : Opcode, ∀ vs : List Nat, vs.length = o.operandMax.length →
    ((∃ ov ∈ vs.zip o.operandMax, ov.2 < ov.1) →
      assembleParsed { mnemonic := o, operands := vs } = .error .operandTooLarge) ∧
    ((∀ ov ∈ vs.zip o.operandMax, ov.1 ≤ ov.2) →
      ∃ i, assembleParsed { mnemonic := o, operands := vs } = .ok i ∧ i.opcode = some o ∧ i.operandValues = vs)

/-! ## The step -/

/-- Where the host's next bytes decode to an operation, and neither a fault, a refusal nor a WRITE in progress stands in
the way, the step is `exec` of that operation; and then the host's sequence moves past its bytes, unless the operation
raised a fault or was refused, which leaves it there (R31, R71). -/
def Obligations.StepRunsDecodedOperation : Prop :=
  ∀ (s : State) (i : Instr) (rest : List Byte), s.halted = false → s.position = none → decode s.input = .op i rest →
    step s =
      match exec i s with
      | .next t => .next (if t.halted then t else { t with input := rest })
      | .fault f => .fault f
      | .refused r => .refused r

/-- Once a fault or refusal stands, no operation executes: every operation and every step leaves all state unchanged
(R131, R136). -/
def Obligations.HaltedMachineIsQuiescent : Prop :=
  ∀ s : State, s.halted = true → (∀ i, exec i s = .next s) ∧ step s = .next s

/-- With no operation left the machine waits for the host (the model's choice, log 8). -/
def Obligations.IdleMachineWaits : Prop :=
  ∀ s : State, s.position = none → s.input = [] → step s = .next s

/-- A host operation started while a WRITE runs is refused, REF_OVERLAP, with no other effect (R155, R136). -/
def Obligations.OverlappingOperationIsRefused : Prop :=
  ∀ (s : State) (i : Instr), s.halted = false → s.busy = true → i.hostIssued = true →
    exec i s = .next { s with refusal := some .overlap }

/-! ## Construction -/

/-- The state after construction with legal parameters (R39, R146); without an allocation there is no buffer (R21).
The parameters are those construction fixes (R146) and the host's sequence is the given one, from its first operation on
(R148), in the fields where the model holds them (log 1, log 7). -/
def Obligations.ConstructionLeavesResetValues : Prop :=
  ∀ (p : Params) (input : List Byte), 1 ≤ p.chainLength → p.chainLength ≤ 5461 →
    let s := construct p input
    s.params = p ∧ s.input = input ∧
    (p.allocOk = true → ∀ i, i < 12 * p.chainLength → s.channel i = 0#16) ∧ (p.allocOk = false → s.pwm = []) ∧
    s.bcR = 127#7 ∧ s.bcG = 127#7 ∧ s.bcB = 127#7 ∧ s.ready = false ∧
    s.initStatus = .none ∧ s.fault = none ∧ s.refused = false ∧ s.trace = [] ∧ s.pc = 0 ∧ s.result = .nothing ∧
    s.inCritical = false ∧ s.txnHeld = false ∧ s.sck = .unknown ∧ s.sdo = .unknown ∧ s.pinsConfigured = false ∧
    s.position = none ∧ wrcmdMagic = 0x25#6 ∧ modeFlags = 0x16#5

/-- Construction with parameters that break R6 refuses, REF_CONFIG, and nothing happens from then on (R146, R136). -/
def Obligations.IllegalParametersAreRefused : Prop :=
  ∀ (p : Params) (input : List Byte), p.chainLength = 0 ∨ 5461 < p.chainLength →
    (construct p input).refusal = some .config ∧ (construct p input).trace = [] ∧
    step (construct p input) = .next (construct p input)

/-! ## The channel state store -/

/-- SETCH (R78), and its encoding: below `C` the element is written and no other; at `C` it faults; beyond `C` it has
no effect; without a buffer it faults before any other check. The buffer's canonical form is a premise, which every
step keeps. -/
def Obligations.SetchWritesOneChannel : Prop :=
  ∀ (s : State) (idx val : Word), s.Live → s.pwm.wf = true →
    encode (.setch idx val) =
      [0x10#8, idx.extractLsb' 8 8, idx.extractLsb' 0 8, val.extractLsb' 8 8, val.extractLsb' 0 8] ∧
    (s.params.allocOk = true → idx.toNat < 12 * s.params.chainLength →
      ∃ t, exec (.setch idx val) s = .next t ∧ t.channel idx.toNat = val ∧
        (∀ a, a ≠ idx.toNat → t.channel a = s.channel a) ∧
        t.result = .nothing ∧ t.pc = s.pc + 1 ∧ s.SameButBuffer t) ∧
    (s.params.allocOk = true → idx.toNat = 12 * s.params.chainLength →
      exec (.setch idx val) s = .next { s with fault := some (.chOverrun .setch (12 * s.params.chainLength)) }) ∧
    (s.params.allocOk = true → 12 * s.params.chainLength < idx.toNat →
      exec (.setch idx val) s = .next { s with result := .nothing, pc := s.pc + 1 }) ∧
    (s.params.allocOk = false → exec (.setch idx val) s = .next { s with fault := some (.noBuffer .setch) })

/-- GETCH (R80), and its encoding: below `C` the result is the element and only the result and `pc` change; at or
beyond `C` it faults; without a buffer it faults before any other check. -/
def Obligations.GetchReadsOneChannel : Prop :=
  ∀ (s : State) (idx : Word), s.Live →
    encode (.getch idx) = [0x11#8, idx.extractLsb' 8 8, idx.extractLsb' 0 8] ∧
    (s.params.allocOk = true → idx.toNat < 12 * s.params.chainLength →
      exec (.getch idx) s = .next { s with result := .word (s.channel idx.toNat), pc := s.pc + 1 }) ∧
    (s.params.allocOk = true → 12 * s.params.chainLength ≤ idx.toNat →
      exec (.getch idx) s = .next { s with fault := some (.rdRange .getch idx) }) ∧
    (s.params.allocOk = false → exec (.getch idx) s = .next { s with fault := some (.noBuffer .getch) })

/-- The set-get law (R79). -/
def Obligations.SetchThenGetchReturnsValue : Prop :=
  ∀ (s : State) (i v : Word), s.Live → s.pwm.wf = true → s.params.allocOk = true →
    i.toNat < 12 * s.params.chainLength →
    ∃ t u, exec (.setch i v) s = .next t ∧ exec (.getch i) t = .next u ∧ u.result = .word v

/-- SETLED (R82), and its encoding: below LED `4N` exactly the three elements `3k`, `3k + 1`, `3k + 2` are written; at
`4N` it faults with nothing written; beyond `4N` it has no effect; without a buffer it faults before any other check.
-/
def Obligations.SetledWritesThreeChannels : Prop :=
  ∀ (s : State) (k r g b : Word), s.Live → s.pwm.wf = true →
    encode (.setled k r g b) =
      [0x20#8, k.extractLsb' 8 8, k.extractLsb' 0 8, r.extractLsb' 8 8, r.extractLsb' 0 8,
        g.extractLsb' 8 8, g.extractLsb' 0 8, b.extractLsb' 8 8, b.extractLsb' 0 8] ∧
    (s.params.allocOk = true → k.toNat < 4 * s.params.chainLength →
      ∃ t, exec (.setled k r g b) s = .next t ∧
        t.channel (3 * k.toNat) = r ∧ t.channel (3 * k.toNat + 1) = g ∧ t.channel (3 * k.toNat + 2) = b ∧
        (∀ a, a < 3 * k.toNat ∨ 3 * k.toNat + 2 < a → t.channel a = s.channel a) ∧
        t.result = .nothing ∧ t.pc = s.pc + 1 ∧ s.SameButBuffer t) ∧
    (s.params.allocOk = true → k.toNat = 4 * s.params.chainLength →
      exec (.setled k r g b) s = .next { s with fault := some (.chOverrun .setled (12 * s.params.chainLength)) }) ∧
    (s.params.allocOk = true → 4 * s.params.chainLength < k.toNat →
      exec (.setled k r g b) s = .next { s with result := .nothing, pc := s.pc + 1 }) ∧
    (s.params.allocOk = false → exec (.setled k r g b) s = .next { s with fault := some (.noBuffer .setled) })

/-- GETLED (R84), and its encoding: below LED `4N` the result is the three elements; at or beyond it faults; without a
buffer it faults before any other check. -/
def Obligations.GetledReadsThreeChannels : Prop :=
  ∀ (s : State) (k : Word), s.Live →
    encode (.getled k) = [0x21#8, k.extractLsb' 8 8, k.extractLsb' 0 8] ∧
    (s.params.allocOk = true → k.toNat < 4 * s.params.chainLength →
      exec (.getled k) s = .next { s with
        result := .triple (s.channel (3 * k.toNat)) (s.channel (3 * k.toNat + 1)) (s.channel (3 * k.toNat + 2))
        pc := s.pc + 1 }) ∧
    (s.params.allocOk = true → 4 * s.params.chainLength ≤ k.toNat →
      exec (.getled k) s = .next { s with fault := some (.rdRange .getled k) }) ∧
    (s.params.allocOk = false → exec (.getled k) s = .next { s with fault := some (.noBuffer .getled) })

/-- The LED set-get law (R85). -/
def Obligations.SetledThenGetledReturnsValues : Prop :=
  ∀ (s : State) (k r g b : Word), s.Live → s.pwm.wf = true → s.params.allocOk = true →
    k.toNat < 4 * s.params.chainLength →
    ∃ t u, exec (.setled k r g b) s = .next t ∧ exec (.getled k) t = .next u ∧ u.result = .triple r g b

/-- SETLED is three SETCH (R83, R73), as far as SETCH can spell the indices: the same state but for `pc`, which counts
three operations, and where SETLED faults, the first SETCH faults with the same code (the recorded opcode differs). -/
def Obligations.SetledIsThreeSetch : Prop :=
  ∀ (s : State) (k r g b : Word), s.Live → s.params.allocOk = true → 3 * k.toNat + 2 ≤ 65535 →
    (k.toNat ≠ 4 * s.params.chainLength →
      ∃ t u v w, exec (.setled k r g b) s = .next t ∧
        exec (.setch (BitVec.ofNat 16 (3 * k.toNat)) r) s = .next u ∧
        exec (.setch (BitVec.ofNat 16 (3 * k.toNat + 1)) g) u = .next v ∧
        exec (.setch (BitVec.ofNat 16 (3 * k.toNat + 2)) b) v = .next w ∧
        w = { t with pc := s.pc + 3 }) ∧
    (k.toNat = 4 * s.params.chainLength →
      ∃ t u, exec (.setled k r g b) s = .next t ∧
        exec (.setch (BitVec.ofNat 16 (3 * k.toNat)) r) s = .next u ∧
        t.fault.map FaultRecord.code = some 2 ∧ u.fault.map FaultRecord.code = some 2 ∧
        t = { s with fault := t.fault } ∧ u = { s with fault := u.fault })

/-- SETBC (R86), and its encoding: each operand above 127 stores 127 and any other is stored as it is, each on its own;
nothing else but the result and `pc` changes. -/
def Obligations.SetbcClampsEachOperand : Prop :=
  ∀ (s : State) (r g b : Byte), s.Live →
    encode (.setbc r g b) = [0x30#8, r, g, b] ∧
    ∃ t, exec (.setbc r g b) s = .next t ∧
      t.bcR.toNat = (if 127 < r.toNat then 127 else r.toNat) ∧
      t.bcG.toNat = (if 127 < g.toNat then 127 else g.toNat) ∧
      t.bcB.toNat = (if 127 < b.toNat then 127 else b.toNat) ∧
      t.result = .nothing ∧ t.pc = s.pc + 1 ∧ s.SameButBright t

/-- SETBCU (R88, R89), and its encoding: the clamped operand is stored in all three registers, and the state is the one
`SETBC x, x, x` leaves. -/
def Obligations.SetbcuClampsOnceForAll : Prop :=
  ∀ (s : State) (x : Byte), s.Live →
    encode (.setbcu x) = [0x31#8, x] ∧
    ∃ t, exec (.setbcu x) s = .next t ∧ exec (.setbc x x x) s = .next t ∧
      t.bcR.toNat = min x.toNat 127 ∧ t.bcG.toNat = min x.toNat 127 ∧ t.bcB.toNat = min x.toNat 127 ∧
      t.result = .nothing ∧ t.pc = s.pc + 1 ∧ s.SameButBright t

/-- Doing a store operation twice with the same operands leaves the same state as doing it once (R50), but for `pc`,
which counts operations. -/
def Obligations.StoreOperationsAreIdempotent : Prop :=
  ∀ (s t u : State) (i : Instr), s.pwm.wf = true →
    ((∃ idx val, i = .setch idx val) ∨ (∃ k r g b, i = .setled k r g b) ∨ (∃ r g b, i = .setbc r g b) ∨
      (∃ x, i = .setbcu x)) →
    exec i s = .next t → exec i t = .next u → u = { t with pc := u.pc }

/-! ## BEGIN -/

/-- BEGIN (R124, R125), and its encoding: without an allocation it reports the failure and touches nothing else; with
one it configures the transport, takes the draw TRANSPORT_OK, whatever it is, and reports it. The draw is a free value
(log 6). -/
def Obligations.BeginReportsInitialisation : Prop :=
  ∀ s : State, s.Live →
    encode .begin = [0x01#8] ∧
    (s.params.allocOk = false →
      exec .begin s = .next { s with
        initStatus := .allocFail, ready := false, result := .bool false, pc := s.pc + 1 }) ∧
    (s.params.allocOk = true →
      ∃ t, exec .begin s = .next t ∧
        t.trace = s.trace ++ [if s.params.transport = .softwareBitBang then .configPins else .initPeripheral] ∧
        t.pinsConfigured = (if s.params.transport = .softwareBitBang then true else s.pinsConfigured) ∧
        ((Config.transportOk s.draws = true ∧ t.initStatus = .ok ∧ t.ready = true ∧ t.result = .bool true) ∨
          (Config.transportOk s.draws = false ∧ t.initStatus = .transportFail ∧ t.ready = false ∧
            t.result = .bool false)) ∧
        t.pc = s.pc + 1 ∧ t.draws = s.draws + 1 ∧ s.SameButInit t)

/-! ## WRITE -/

/-- WRITE where `ready` is false faults, NOT_READY, with the recorded `init_status`, and emits nothing (R94, R135). -/
def Obligations.WriteBeforeBeginFaults : Prop :=
  ∀ s : State, s.Live → s.ready = false →
    exec .write s = .next { s with fault := some (.notReady .write s.initStatus) }

/-- WRITE (R93, R102, R103, R105): it appends exactly the bracketed byte stream with its pin events and the settle delay,
and leaves the store and every other register unchanged. -/
def Obligations.WriteAppendsTransmission : Prop :=
  ∀ s : State, s.Live → s.ready = true → s.params.allocOk = true →
    ∃ t, exec .write s = .next t ∧
      t.trace = s.trace ++
        ([.enterCritical, .beginTxn] ++
          (chainStream s).flatMap (transferEvents s.params.transport) ++
          [.delay (if s.params.transport = .softwareBitBang then 200 else 2), .endTxn, .exitCritical]) ∧
      t.result = .nothing ∧ t.pc = s.pc + 1 ∧ s.SameButWire t

/-- The byte events of a WRITE are the chain stream, whatever the transport: `28 * N` bytes (R64, R101, R104), with
`672 * N` pin events under the software transport and none under the hardware transport. -/
def Obligations.WriteByteEventsAreChainStream : Prop :=
  ∀ s t : State, s.Live → s.ready = true → exec .write s = .next t →
    ∃ es, t.trace = s.trace ++ es ∧ byteEvents es = chainStream s ∧
      (byteEvents es).length = 28 * s.params.chainLength ∧
      (es.filter Event.isPin).length =
        (if s.params.transport = .softwareBitBang then 672 * s.params.chainLength else 0) ∧
      es.length = 5 + 28 * s.params.chainLength + (es.filter Event.isPin).length

/-- The chain stream's bytes (R63, R64): stream byte `28n + b` is byte `b` of device `n`'s frame: the command word's four
bytes, then channels 11 down to 0, each most significant byte first. -/
def Obligations.ChainStreamByteTable : Prop :=
  ∀ s : State,
    (chainStream s).length = 28 * s.params.chainLength ∧
    ∀ n, n < s.params.chainLength →
      (∀ b, b < 4 →
        (chainStream s)[28 * n + b]? = some ((buildCmd s.bcR s.bcG s.bcB).extractLsb' (24 - 8 * b) 8)) ∧
      (∀ j, j < 12 →
        (chainStream s)[28 * n + 4 + 2 * j]? = some ((s.channel (12 * n + (11 - j))).extractLsb' 8 8) ∧
        (chainStream s)[28 * n + 5 + 2 * j]? = some ((s.channel (12 * n + (11 - j))).extractLsb' 0 8))

/-- Pin levels after a software WRITE (R114): the clock high, the data line at bit 0 of the last byte, that is of channel
0 of the last device; under the hardware transport the block has no pin state and none changes (R35). -/
def Obligations.PinLevelsAfterWrite : Prop :=
  ∀ s t : State, s.Live → s.ready = true → 1 ≤ s.params.chainLength → exec .write s = .next t →
    (s.params.transport = .softwareBitBang →
      t.sck = .high ∧
      t.sdo = (if (s.channel (12 * (s.params.chainLength - 1))).getLsbD 0 then .high else .low)) ∧
    (s.params.transport = .hardwarePeripheral → t.sck = s.sck ∧ t.sdo = s.sdo)

/-- WRITE's events depend on nothing but the chain length, the transport, the buffer and the brightness registers (R108),
and what is not a pin event or the settle delay does not depend on the transport either (R111). -/
def Obligations.WriteDependsOnStoreAlone : Prop :=
  ∀ s₁ s₂ t₁ t₂ : State, s₁.Live → s₂.Live → s₁.ready = true → s₂.ready = true →
    s₁.params.chainLength = s₂.params.chainLength → s₁.bcR = s₂.bcR → s₁.bcG = s₂.bcG → s₁.bcB = s₂.bcB →
    (∀ i, i < 12 * s₁.params.chainLength → s₁.channel i = s₂.channel i) →
    exec .write s₁ = .next t₁ → exec .write s₂ = .next t₂ →
    ∃ es₁ es₂, t₁.trace = s₁.trace ++ es₁ ∧ t₂.trace = s₂.trace ++ es₂ ∧ byteEvents es₁ = byteEvents es₂ ∧
      (s₁.params.transport = s₂.params.transport → es₁ = es₂) ∧
      es₁.filter (fun e => !e.isPin && !decide (e = .delay 200 ∨ e = .delay 2)) =
        es₂.filter (fun e => !e.isPin && !decide (e = .delay 200 ∨ e = .delay 2))

/-- What a receiver samples at the rising clock edges of a software WRITE is the most-significant-bit-first bit stream of
its byte events (R45, R113). -/
def Obligations.ReceiverSamplesTheBytes : Prop :=
  ∀ s t : State, s.Live → s.ready = true → s.params.transport = .softwareBitBang → exec .write s = .next t →
    ∃ es, t.trace = s.trace ++ es ∧
      sampledLevels s.sdo es = ((byteEvents es).flatMap msbFirst).map pinOfBit

/-- An observer of the byte stream recovers each device's brightness fields and channel values (R74). -/
def Obligations.ObserverRecoversStore : Prop :=
  ∀ s : State,
    decodeStream s.params.chainLength (chainStream s) =
      some ((List.range s.params.chainLength).map fun n =>
        { bcR := s.bcR, bcG := s.bcG, bcB := s.bcB
          channels := (List.range 12).map fun c => s.channel (12 * n + c) })

/-- After WRITE the host's interrupts are enabled whatever they were before (R121, R153; the field is the model's, log
13); the critical section and the transaction are over (R33, R34). -/
def Obligations.InterruptsEnabledAfterWrite : Prop :=
  ∀ s t : State, s.Live → s.ready = true → exec .write s = .next t →
    t.interruptsEnabled = true ∧ t.inCritical = false ∧ t.txnHeld = false ∧ t.position = none

/-- The wire's command word (R96, R97): at the head of a device's frame the serializer sends its four bytes, most
significant first, and then stands at byte 4 of the frame; under the software transport the clock is then high and the
data line at bit 0 of the word's last byte, under the hardware transport both are as before (R112, R35); only the
trace, the pins and the position change. -/
def Obligations.WrcmdSendsCommandWord : Prop :=
  ∀ (s : State) (r g b : Bright), s.halted = false → s.atFrameHead = true →
    ∃ t, exec (.wrcmd r g b) s = .next t ∧
      t.trace = s.trace ++ (cmdBytes (buildCmd r g b)).flatMap (transferEvents s.params.transport) ∧
      t.position = s.position.map (fun p => { p with byte := 4 }) ∧
      (s.params.transport = .softwareBitBang →
        t.sck = .high ∧ t.sdo = (if b.getLsbD 0 then .high else .low)) ∧
      (s.params.transport = .hardwarePeripheral → t.sck = s.sck ∧ t.sdo = s.sdo) ∧
      t = { s with trace := t.trace, sck := t.sck, sdo := t.sdo, position := t.position }

/-- Anywhere but at a frame's head the command word has no meaning: as a host operation its first byte is an unassigned
opcode (R68, R69; the model's reading of the table's row, log 9). -/
def Obligations.WrcmdOutsideFrameIsRefused : Prop :=
  ∀ (s : State) (r g b : Bright), s.halted = false → s.atFrameHead = false →
    exec (.wrcmd r g b) s = .next { s with refusal := some .opcode } ∧
    decode (encode (.wrcmd r g b)) = .refuse .opcode

/-- At the head of a device's frame the step is the command word of the brightness registers (R36, R96, R97; the
serializer's turns are the model's, log 10). -/
def Obligations.StepAtFrameHeadRunsWrcmd : Prop :=
  ∀ s : State, s.halted = false → s.atFrameHead = true → step s = exec (.wrcmd s.bcR s.bcG s.bcB) s

/-- Inside a frame the step sends what is left of the byte at the serializer's position, from bit `k` down (R36, R112), and
leaves the clock high and the data line at the byte's bit 0 under the software transport, both as before under the hardware
transport (R112, R35). The serializer then stands at the next byte; after byte 27 at the head of the next device's frame
(R100), or, after the last device, the transmission closes as WRITE ends (R93, R118, R121). Nothing else changes. The
serializer's turns are the model's (log 10). -/
def Obligations.SerializerSendsRestOfByte : Prop :=
  ∀ (s : State) (n b k : Nat), s.halted = false → s.position = some { device := n, byte := b, bit := k } →
    s.inCritical = true → s.txnHeld = true → s.params.allocOk = true →
    n < s.params.chainLength → b < 28 → k ≤ 7 → (s.params.transport = .hardwarePeripheral → k = 7) →
    (b ≠ 0 ∨ k ≠ 7) →
    ∃ x, (deviceFrame s n)[b]? = some x ∧
      let sent : State := { s with
        trace := s.trace ++ (if k = 7 then [.byte x] else []) ++
          (if s.params.transport = .softwareBitBang then
            (List.range (k + 1)).reverse.flatMap fun j => [.sck false, .sdo (x.getLsbD j), .sck true]
          else [])
        sck := if s.params.transport = .softwareBitBang then .high else s.sck
        sdo := if s.params.transport = .softwareBitBang then (if x.getLsbD 0 then .high else .low) else s.sdo }
      (b < 27 → step s = .next { sent with position := some { device := n, byte := b + 1, bit := 7 } }) ∧
      (b = 27 → n + 1 < s.params.chainLength →
        step s = .next { sent with position := some { device := n + 1, byte := 0, bit := 7 } }) ∧
      (b = 27 → n + 1 = s.params.chainLength →
        step s = .next { sent with
          trace := sent.trace ++
            [.delay (if s.params.transport = .softwareBitBang then 200 else 2), .endTxn, .exitCritical]
          txnHeld := false, inCritical := false, interruptsEnabled := true, position := none
          result := .nothing, pc := s.pc + 1, input := s.input.drop 1 })

/-- The atomic WRITE is the serializer's own run (R12, R36): from the state in which a WRITE has opened its transmission,
at the head of device 0's frame, `25 * N` steps of the machine (one per command word, one per channel byte) end in the
state that the single WRITE step gives. That a state inside a WRITE has steps of its own, and how much one of them sends, is
the model's choice (log 10); the spec asks for no more than the atomic step. -/
def Obligations.AtomicWriteIsSerializerRun : Prop :=
  ∀ (s : State) (rest : List Byte), s.Live → s.ready = true → s.params.allocOk = true → 1 ≤ s.params.chainLength →
    s.input = encode .write ++ rest →
    ∃ t, step s = .next t ∧
      Host.Core.run core (25 * s.params.chainLength) ((openTransmission s).atFrame 0) = .next t

/-- The serial settings inside a transaction of the hardware transport: most significant bit first, mode 0, a clock
between 500 kHz and 1 MHz (R116, R6); none under the software transport (R115). -/
def Obligations.TransactionSettings : Prop :=
  ∀ s : State, s.txnHeld = true →
    (s.params.transport = .hardwarePeripheral →
      ∃ hz, 500000 ≤ hz ∧ hz ≤ 1000000 ∧ spiSettings s = some { msbFirst := true, mode := 0, clockHz := hz }) ∧
    (s.params.transport = .softwareBitBang → spiSettings s = none)

/-! ## The whole machine -/

/-- The invariant holds after construction with any parameters, and at reset. -/
def Obligations.ConstructionMeetsInvariant : Prop :=
  State.reset.Inv ∧ ∀ (p : Params) (input : List Byte), (construct p input).Inv

/-- From every state that meets the invariant, a step gives a state that meets it. -/
def Obligations.StepKeepsInvariant : Prop :=
  ∀ s t : State, s.Inv → step s = .next t → t.Inv

/-- From every state that meets the invariant, every operation and the step answer a next state: the model never stops
(R106: a WRITE that is ready always completes). -/
def Obligations.MachineNeverStops : Prop :=
  ∀ s : State, s.Inv → (∃ t, step s = .next t) ∧ ∀ i, ∃ t, exec i s = .next t

/-- The parameters never change during a run (R6). -/
def Obligations.ParametersNeverChange : Prop :=
  ∀ s t : State, step s = .next t → t.params = s.params

/-- The trace is append-only (R30). -/
def Obligations.TraceIsAppendOnly : Prop :=
  ∀ s t : State, step s = .next t → ∃ es, t.trace = s.trace ++ es

/-- No control transfer: a step leaves `pc` or counts it on by one; `pc` stays where a fault or refusal is raised
(R31, R122). -/
def Obligations.PcCountsByOne : Prop :=
  ∀ s t : State, step s = .next t → (t.pc = s.pc ∨ t.pc = s.pc + 1) ∧ (t.halted = true → t.pc = s.pc)

/-- Faults and refusals are precise: the state after one is the state before the operation, plus the mark (R131, R136,
R138). -/
def Obligations.FaultsAreExact : Prop :=
  ∀ (s t : State) (i : Instr), s.halted = false → exec i s = .next t → t.halted = true →
    (∃ f, t = { s with fault := some f }) ∨ (∃ r, t = { s with refusal := some r })

/-- The fault table (R130): which operation raises which code, with which recorded info and for which cause; BEGIN, SETBC
and SETBCU raise none. -/
def Obligations.FaultTable : Prop :=
  ∀ (s t : State) (i : Instr) (f : FaultRecord), s.fault = none → exec i s = .next t → t.fault = some f →
    match f with
    | .noBuffer o => f.code = 1 ∧ s.params.allocOk = false ∧ i.opcode = some o ∧ o ∈ [Opcode.setch, .getch, .setled, .getled]
    | .chOverrun o j =>
      f.code = 2 ∧ j = 12 * s.params.chainLength ∧ i.opcode = some o ∧
        ((∃ idx val, i = .setch idx val ∧ idx.toNat = j) ∨ (∃ k r g b, i = .setled k r g b ∧ 3 * k.toNat = j))
    | .rdRange o w =>
      f.code = 3 ∧ i.opcode = some o ∧
        ((i = .getch w ∧ 12 * s.params.chainLength ≤ w.toNat) ∨
          (i = .getled w ∧ 4 * s.params.chainLength ≤ w.toNat))
    | .notReady o st => f.code = 4 ∧ i = .write ∧ o = .write ∧ s.ready = false ∧ st = s.initStatus

/-- Who writes what: only SETCH and SETLED change the buffer (R21), only SETBC and SETBCU a brightness register (R23),
only BEGIN `ready`, `init_status` and `pins_configured` (R26, R27, R35), and only BEGIN, WRITE and its command word the
trace and the pins: the store operations do not transmit (R75, R91). -/
def Obligations.EachRegisterHasItsWriters : Prop :=
  ∀ (s t : State) (i : Instr), exec i s = .next t →
    (t.pwm ≠ s.pwm → (∃ idx val, i = .setch idx val) ∨ (∃ k r g b, i = .setled k r g b)) ∧
    ((t.bcR, t.bcG, t.bcB) ≠ (s.bcR, s.bcG, s.bcB) → (∃ r g b, i = .setbc r g b) ∨ (∃ x, i = .setbcu x)) ∧
    ((t.ready, t.initStatus, t.pinsConfigured) ≠ (s.ready, s.initStatus, s.pinsConfigured) → i = .begin) ∧
    (t.trace ≠ s.trace → i = .begin ∨ i = .write ∨ ∃ r g b, i = .wrcmd r g b) ∧
    ((t.sck, t.sdo) ≠ (s.sck, s.sdo) → i = .write ∨ ∃ r g b, i = .wrcmd r g b)

/-- The channel operations run before BEGIN as after it: their effect reads neither `ready` nor `init_status` (R77). -/
def Obligations.StoreIgnoresReadiness : Prop :=
  ∀ (s t : State) (i : Instr) (r : Bool) (st : InitStatus), i.hostIssued = true → i ≠ .begin → i ≠ .write →
    exec i s = .next t →
    exec i { s with ready := r, initStatus := st } = .next { t with ready := r, initStatus := st }

/-- The observation at the end of a run (R131, R158): a run that stands in a fault or refusal at its end, wherever it
met it, has none; one that has executed every operation with neither has the final trace, the results in order, and the
final buffer, brightness registers and `ready`. -/
def Obligations.HaltedRunHasNoObservation : Prop :=
  ∀ s : State,
    let run := runFor s.input.length s
    (run.1.halted = true → observe s = none) ∧
    (run.1.endedWell → observe s = some
      { trace := run.1.trace, results := run.2, pwm := run.1.pwm, bcR := run.1.bcR, bcG := run.1.bcG, bcB := run.1.bcB,
        ready := run.1.ready })

/-- The observation of a run, operation by operation (R31, R131, R136, R158). With no operation left it is the state's own.
Where the next operation completes it is that of the rest of the sequence, with the operation's result in front; where it
meets a fault or refusal, or the next bytes have no meaning, there is none. -/
def Obligations.ObservationFollowsOperations : Prop :=
  ∀ s : State, s.Live →
    (s.input = [] → observe s = some
      { trace := s.trace, results := [], pwm := s.pwm, bcR := s.bcR, bcG := s.bcG, bcB := s.bcB, ready := s.ready }) ∧
    (∀ reason, decode s.input = .refuse reason → observe s = none) ∧
    (∀ i rest t, decode s.input = .op i rest → exec i s = .next t →
      (t.halted = true → observe s = none) ∧
      (t.halted = false → observe s =
        (observe { t with input := rest }).map fun o => { o with results := t.result :: o.results }))
end

