-- ==== Sys2Proof/Laws/Memory.lean ====
section
/-! SUPPORT. The laws of the channel buffer: reading after writing, and the canonical form every operation keeps. -/

namespace Sys2Proof.Machine

@[simp] theorem Memory.read_nil (i : Nat) : Memory.read [] i = 0#16 := rfl

@[simp] theorem Memory.wf_nil : Memory.wf [] = true := rfl

@[simp] theorem Memory.below_nil (c : Nat) : Memory.below c [] = true := rfl

/-- A canonical buffer stays canonical from any lower index. -/
theorem Memory.wfFrom_mono {lo lo' : Nat} {m : Memory} (h : Memory.wfFrom lo m = true) (hle : lo' ≤ lo) :
    Memory.wfFrom lo' m = true := by
  cases m with
  | nil => rfl
  | cons e m =>
    simp only [Memory.wfFrom, Bool.and_eq_true, decide_eq_true_eq] at h ⊢
    exact ⟨⟨hle.trans h.1.1, h.1.2⟩, h.2⟩

/-- Below the first index of a canonical buffer every element is 0. -/
theorem Memory.read_below {lo : Nat} {m : Memory} (h : Memory.wfFrom lo m = true) {i : Nat} (hi : i < lo) :
    Memory.read m i = 0#16 := by
  induction m generalizing lo with
  | nil => rfl
  | cons e m ih =>
    simp only [Memory.wfFrom, Bool.and_eq_true, decide_eq_true_eq] at h
    rw [Memory.read, if_neg (by omega)]
    exact ih h.2 (by omega)

/-- Reading one entry in front of a buffer. -/
theorem Memory.read_entry_append (i : Nat) (v : Word) (m : Memory) (j : Nat) :
    Memory.read (Memory.entry i v ++ m) j = if i = j ∧ v ≠ 0#16 then v else Memory.read m j := by
  by_cases hv : v = 0#16 <;> simp [Memory.entry, hv, Memory.read]

/-- The element written reads as the value written. -/
theorem Memory.read_write_same {lo : Nat} {m : Memory} (h : Memory.wfFrom lo m = true) (i : Nat) (v : Word) :
    Memory.read (Memory.write m i v) i = v := by
  induction m generalizing lo with
  | nil => by_cases hv : v = 0#16 <;> simp [Memory.write, Memory.entry, hv, Memory.read]
  | cons e m ih =>
    obtain ⟨a, w⟩ := e
    simp only [Memory.wfFrom, Bool.and_eq_true, decide_eq_true_eq] at h
    have hm : i ≤ a → Memory.read m i = 0#16 := fun hi => Memory.read_below h.2 (by omega)
    rw [Memory.write]
    split
    · have ha : ¬a = i := by omega
      rw [Memory.read_entry_append]
      by_cases hv : v = 0#16 <;> simp [hv, Memory.read, ha, hm (by omega)]
    · split
      · rw [Memory.read_entry_append, hm (by omega)]
        by_cases hv : v = 0#16 <;> simp [hv]
      · rw [Memory.read, if_neg (by omega)]
        exact ih h.2

/-- A write leaves every other element alone. -/
theorem Memory.read_write_ne (m : Memory) (i : Nat) (v : Word) {j : Nat} (hj : j ≠ i) :
    Memory.read (Memory.write m i v) j = Memory.read m j := by
  induction m with
  | nil => rw [Memory.write, ← List.append_nil (Memory.entry i v), Memory.read_entry_append, if_neg (by tauto)]
  | cons e m ih =>
    obtain ⟨a, w⟩ := e
    rw [Memory.write]
    split
    · rw [Memory.read_entry_append, if_neg (by tauto)]
    · split
      · rename_i h
        rw [Memory.read_entry_append, if_neg (by tauto), Memory.read, if_neg (by omega)]
      · rw [Memory.read, Memory.read, ih]

/-- A write keeps the canonical form. -/
theorem Memory.wfFrom_write {lo : Nat} {m : Memory} (h : Memory.wfFrom lo m = true) {i : Nat} (hi : lo ≤ i) (v : Word) :
    Memory.wfFrom lo (Memory.write m i v) = true := by
  induction m generalizing lo with
  | nil => by_cases hv : v = 0#16 <;> simp [Memory.write, Memory.entry, hv, Memory.wfFrom, hi]
  | cons e m ih =>
    obtain ⟨a, w⟩ := e
    have h' := h
    simp only [Memory.wfFrom, Bool.and_eq_true, decide_eq_true_eq] at h
    rw [Memory.write]
    by_cases hv : v = 0#16
    · split
      · simpa [Memory.entry, hv] using h'
      · split
        · simpa [Memory.entry, hv] using Memory.wfFrom_mono h.2 (by omega)
        · simp only [Memory.wfFrom, Bool.and_eq_true, decide_eq_true_eq]
          exact ⟨h.1, ih h.2 (by omega)⟩
    · split
      · simp only [Memory.entry, hv, if_false, List.cons_append, List.nil_append, Memory.wfFrom, Bool.and_eq_true,
          decide_eq_true_eq]
        exact ⟨⟨hi, hv⟩, ⟨by omega, h.1.2⟩, h.2⟩
      · split
        · simp only [Memory.entry, hv, if_false, List.cons_append, List.nil_append, Memory.wfFrom, Bool.and_eq_true,
            decide_eq_true_eq]
          exact ⟨⟨hi, hv⟩, Memory.wfFrom_mono h.2 (by omega)⟩
        · simp only [Memory.wfFrom, Bool.and_eq_true, decide_eq_true_eq]
          exact ⟨h.1, ih h.2 (by omega)⟩

/-- The one buffer operation that writes keeps the canonical form. -/
theorem Memory.wf_write {m : Memory} (h : m.wf = true) (i : Nat) (v : Word) : (Memory.write m i v).wf = true :=
  Memory.wfFrom_write h (Nat.zero_le i) v

/-- A write below `c` keeps the buffer below `c`. -/
theorem Memory.below_write {c : Nat} {m : Memory} (h : Memory.below c m = true) {i : Nat} (hi : i < c) (v : Word) :
    Memory.below c (Memory.write m i v) = true := by
  induction m with
  | nil => by_cases hv : v = 0#16 <;> simp [Memory.write, Memory.entry, hv, Memory.below, hi]
  | cons e m ih =>
    obtain ⟨a, w⟩ := e
    simp only [Memory.below, List.all_cons, Bool.and_eq_true, decide_eq_true_eq] at h ih
    rw [Memory.write]
    split
    · by_cases hv : v = 0#16 <;> simp [Memory.entry, hv, Memory.below, hi] <;> simpa using h
    · split
      · by_cases hv : v = 0#16 <;> simp [Memory.entry, hv, Memory.below, hi] <;> simpa using h.2
      · simp only [Memory.below, List.all_cons, Bool.and_eq_true, decide_eq_true_eq]
        exact ⟨h.1, ih h.2⟩

/-- Writing the same value again changes nothing. -/
theorem Memory.write_write_same {lo : Nat} {m : Memory} (h : Memory.wfFrom lo m = true) (i : Nat) (v : Word) :
    Memory.write (Memory.write m i v) i v = Memory.write m i v := by
  induction m generalizing lo with
  | nil => by_cases hv : v = 0#16 <;> simp [Memory.write, Memory.entry, hv]
  | cons e m ih =>
    obtain ⟨a, w⟩ := e
    simp only [Memory.wfFrom, Bool.and_eq_true, decide_eq_true_eq] at h
    by_cases h1 : i < a
    · by_cases hv : v = 0#16 <;> simp [Memory.write, Memory.entry, hv, h1]
    · by_cases h2 : i = a
      · subst h2
        by_cases hv : v = 0#16
        · cases m with
          | nil => simp [Memory.write, Memory.entry, hv]
          | cons e' m' =>
            obtain ⟨a', w'⟩ := e'
            simp only [Memory.wfFrom, Bool.and_eq_true, decide_eq_true_eq] at h
            have : i < a' := by omega
            simp [Memory.write, Memory.entry, hv, this]
        · simp [Memory.write, Memory.entry, hv]
      · simp [Memory.write, h1, h2, ih h.2]

/-- The first listed element of a canonical buffer is not 0, and lies at or above the bound. -/
theorem Memory.head_of_wfFrom {lo a : Nat} {v : Word} {m : Memory} (h : Memory.wfFrom lo ((a, v) :: m) = true) :
    lo ≤ a ∧ v ≠ 0#16 ∧ Memory.wfFrom (a + 1) m = true := by
  simp only [Memory.wfFrom, Bool.and_eq_true, decide_eq_true_eq] at h
  exact ⟨h.1.1, h.1.2, h.2⟩

/-- Canonical buffers that read alike everywhere are the same list. -/
theorem Memory.eq_of_read {lo : Nat} {m m' : Memory} (h : Memory.wfFrom lo m = true) (h' : Memory.wfFrom lo m' = true)
    (hr : ∀ i, Memory.read m i = Memory.read m' i) : m = m' := by
  induction m generalizing lo m' with
  | nil =>
    cases m' with
    | nil => rfl
    | cons e m' =>
      have := Memory.head_of_wfFrom h'
      have := hr e.1
      simp_all [Memory.read]
  | cons e m ih =>
    obtain ⟨a, v⟩ := e
    obtain ⟨-, hv, hm⟩ := Memory.head_of_wfFrom h
    cases m' with
    | nil =>
      have := hr a
      simp_all [Memory.read]
    | cons e' m' =>
      obtain ⟨a', v'⟩ := e'
      obtain ⟨-, hv', hm'⟩ := Memory.head_of_wfFrom h'
      have ha : a = a' := by
        by_contra hne
        rcases Nat.lt_or_gt_of_ne hne with hlt | hlt
        · have := hr a
          simp only [Memory.read, if_true, if_neg (Ne.symm hne), Memory.read_below hm' (show a < a' + 1 by omega)] at this
          exact hv this
        · have := hr a'
          simp only [Memory.read, if_true, if_neg hne, Memory.read_below hm (show a' < a + 1 by omega)] at this
          exact hv' this.symm
      subst ha
      have hvv : v = v' := by simpa [Memory.read] using hr a
      subst hvv
      refine congrArg _ (ih hm hm' fun i => ?_)
      by_cases hi : a = i
      · subst hi
        rw [Memory.read_below hm (Nat.lt_succ_self a), Memory.read_below hm' (Nat.lt_succ_self a)]
      · simpa [Memory.read, hi] using hr i

end Sys2Proof.Machine
end

