-- ==== Sys2Proof/Laws/State.lean ====
section
/-! SUPPORT. What each field is after each update of the state: one simp lemma per field per update, true by definition. -/

namespace Sys2Proof.Machine

/-! ## State.putChannel -/

@[simp] theorem State.putChannel_params (i : Nat) (v : Word) (s : State) :
    (State.putChannel i v s).params = s.params := rfl

@[simp] theorem State.putChannel_pwm (i : Nat) (v : Word) (s : State) :
    (State.putChannel i v s).pwm = s.pwm.write i v := rfl

@[simp] theorem State.putChannel_bcR (i : Nat) (v : Word) (s : State) :
    (State.putChannel i v s).bcR = s.bcR := rfl

@[simp] theorem State.putChannel_bcG (i : Nat) (v : Word) (s : State) :
    (State.putChannel i v s).bcG = s.bcG := rfl

@[simp] theorem State.putChannel_bcB (i : Nat) (v : Word) (s : State) :
    (State.putChannel i v s).bcB = s.bcB := rfl

@[simp] theorem State.putChannel_ready (i : Nat) (v : Word) (s : State) :
    (State.putChannel i v s).ready = s.ready := rfl

@[simp] theorem State.putChannel_initStatus (i : Nat) (v : Word) (s : State) :
    (State.putChannel i v s).initStatus = s.initStatus := rfl

@[simp] theorem State.putChannel_fault (i : Nat) (v : Word) (s : State) :
    (State.putChannel i v s).fault = s.fault := rfl

@[simp] theorem State.putChannel_refusal (i : Nat) (v : Word) (s : State) :
    (State.putChannel i v s).refusal = s.refusal := rfl

@[simp] theorem State.putChannel_trace (i : Nat) (v : Word) (s : State) :
    (State.putChannel i v s).trace = s.trace := rfl

@[simp] theorem State.putChannel_pc (i : Nat) (v : Word) (s : State) :
    (State.putChannel i v s).pc = s.pc := rfl

@[simp] theorem State.putChannel_result (i : Nat) (v : Word) (s : State) :
    (State.putChannel i v s).result = s.result := rfl

@[simp] theorem State.putChannel_inCritical (i : Nat) (v : Word) (s : State) :
    (State.putChannel i v s).inCritical = s.inCritical := rfl

@[simp] theorem State.putChannel_txnHeld (i : Nat) (v : Word) (s : State) :
    (State.putChannel i v s).txnHeld = s.txnHeld := rfl

@[simp] theorem State.putChannel_sck (i : Nat) (v : Word) (s : State) :
    (State.putChannel i v s).sck = s.sck := rfl

@[simp] theorem State.putChannel_sdo (i : Nat) (v : Word) (s : State) :
    (State.putChannel i v s).sdo = s.sdo := rfl

@[simp] theorem State.putChannel_pinsConfigured (i : Nat) (v : Word) (s : State) :
    (State.putChannel i v s).pinsConfigured = s.pinsConfigured := rfl

@[simp] theorem State.putChannel_position (i : Nat) (v : Word) (s : State) :
    (State.putChannel i v s).position = s.position := rfl

@[simp] theorem State.putChannel_interruptsEnabled (i : Nat) (v : Word) (s : State) :
    (State.putChannel i v s).interruptsEnabled = s.interruptsEnabled := rfl

@[simp] theorem State.putChannel_input (i : Nat) (v : Word) (s : State) :
    (State.putChannel i v s).input = s.input := rfl

@[simp] theorem State.putChannel_draws (i : Nat) (v : Word) (s : State) :
    (State.putChannel i v s).draws = s.draws := rfl

/-! ## State.putBright -/

@[simp] theorem State.putBright_params (r g b : Bright) (s : State) :
    (State.putBright r g b s).params = s.params := rfl

@[simp] theorem State.putBright_pwm (r g b : Bright) (s : State) :
    (State.putBright r g b s).pwm = s.pwm := rfl

@[simp] theorem State.putBright_bcR (r g b : Bright) (s : State) :
    (State.putBright r g b s).bcR = r := rfl

@[simp] theorem State.putBright_bcG (r g b : Bright) (s : State) :
    (State.putBright r g b s).bcG = g := rfl

@[simp] theorem State.putBright_bcB (r g b : Bright) (s : State) :
    (State.putBright r g b s).bcB = b := rfl

@[simp] theorem State.putBright_ready (r g b : Bright) (s : State) :
    (State.putBright r g b s).ready = s.ready := rfl

@[simp] theorem State.putBright_initStatus (r g b : Bright) (s : State) :
    (State.putBright r g b s).initStatus = s.initStatus := rfl

@[simp] theorem State.putBright_fault (r g b : Bright) (s : State) :
    (State.putBright r g b s).fault = s.fault := rfl

@[simp] theorem State.putBright_refusal (r g b : Bright) (s : State) :
    (State.putBright r g b s).refusal = s.refusal := rfl

@[simp] theorem State.putBright_trace (r g b : Bright) (s : State) :
    (State.putBright r g b s).trace = s.trace := rfl

@[simp] theorem State.putBright_pc (r g b : Bright) (s : State) :
    (State.putBright r g b s).pc = s.pc := rfl

@[simp] theorem State.putBright_result (r g b : Bright) (s : State) :
    (State.putBright r g b s).result = s.result := rfl

@[simp] theorem State.putBright_inCritical (r g b : Bright) (s : State) :
    (State.putBright r g b s).inCritical = s.inCritical := rfl

@[simp] theorem State.putBright_txnHeld (r g b : Bright) (s : State) :
    (State.putBright r g b s).txnHeld = s.txnHeld := rfl

@[simp] theorem State.putBright_sck (r g b : Bright) (s : State) :
    (State.putBright r g b s).sck = s.sck := rfl

@[simp] theorem State.putBright_sdo (r g b : Bright) (s : State) :
    (State.putBright r g b s).sdo = s.sdo := rfl

@[simp] theorem State.putBright_pinsConfigured (r g b : Bright) (s : State) :
    (State.putBright r g b s).pinsConfigured = s.pinsConfigured := rfl

@[simp] theorem State.putBright_position (r g b : Bright) (s : State) :
    (State.putBright r g b s).position = s.position := rfl

@[simp] theorem State.putBright_interruptsEnabled (r g b : Bright) (s : State) :
    (State.putBright r g b s).interruptsEnabled = s.interruptsEnabled := rfl

@[simp] theorem State.putBright_input (r g b : Bright) (s : State) :
    (State.putBright r g b s).input = s.input := rfl

@[simp] theorem State.putBright_draws (r g b : Bright) (s : State) :
    (State.putBright r g b s).draws = s.draws := rfl

/-! ## State.emit -/

@[simp] theorem State.emit_params (e : Event) (s : State) :
    (State.emit e s).params = s.params := rfl

@[simp] theorem State.emit_pwm (e : Event) (s : State) :
    (State.emit e s).pwm = s.pwm := rfl

@[simp] theorem State.emit_bcR (e : Event) (s : State) :
    (State.emit e s).bcR = s.bcR := rfl

@[simp] theorem State.emit_bcG (e : Event) (s : State) :
    (State.emit e s).bcG = s.bcG := rfl

@[simp] theorem State.emit_bcB (e : Event) (s : State) :
    (State.emit e s).bcB = s.bcB := rfl

@[simp] theorem State.emit_ready (e : Event) (s : State) :
    (State.emit e s).ready = s.ready := rfl

@[simp] theorem State.emit_initStatus (e : Event) (s : State) :
    (State.emit e s).initStatus = s.initStatus := rfl

@[simp] theorem State.emit_fault (e : Event) (s : State) :
    (State.emit e s).fault = s.fault := rfl

@[simp] theorem State.emit_refusal (e : Event) (s : State) :
    (State.emit e s).refusal = s.refusal := rfl

@[simp] theorem State.emit_trace (e : Event) (s : State) :
    (State.emit e s).trace = s.trace ++ [e] := rfl

@[simp] theorem State.emit_pc (e : Event) (s : State) :
    (State.emit e s).pc = s.pc := rfl

@[simp] theorem State.emit_result (e : Event) (s : State) :
    (State.emit e s).result = s.result := rfl

@[simp] theorem State.emit_inCritical (e : Event) (s : State) :
    (State.emit e s).inCritical = s.inCritical := rfl

@[simp] theorem State.emit_txnHeld (e : Event) (s : State) :
    (State.emit e s).txnHeld = s.txnHeld := rfl

@[simp] theorem State.emit_sck (e : Event) (s : State) :
    (State.emit e s).sck = s.sck := rfl

@[simp] theorem State.emit_sdo (e : Event) (s : State) :
    (State.emit e s).sdo = s.sdo := rfl

@[simp] theorem State.emit_pinsConfigured (e : Event) (s : State) :
    (State.emit e s).pinsConfigured = s.pinsConfigured := rfl

@[simp] theorem State.emit_position (e : Event) (s : State) :
    (State.emit e s).position = s.position := rfl

@[simp] theorem State.emit_interruptsEnabled (e : Event) (s : State) :
    (State.emit e s).interruptsEnabled = s.interruptsEnabled := rfl

@[simp] theorem State.emit_input (e : Event) (s : State) :
    (State.emit e s).input = s.input := rfl

@[simp] theorem State.emit_draws (e : Event) (s : State) :
    (State.emit e s).draws = s.draws := rfl

/-! ## State.driveSck -/

@[simp] theorem State.driveSck_params (b : Bool) (s : State) :
    (State.driveSck b s).params = s.params := rfl

@[simp] theorem State.driveSck_pwm (b : Bool) (s : State) :
    (State.driveSck b s).pwm = s.pwm := rfl

@[simp] theorem State.driveSck_bcR (b : Bool) (s : State) :
    (State.driveSck b s).bcR = s.bcR := rfl

@[simp] theorem State.driveSck_bcG (b : Bool) (s : State) :
    (State.driveSck b s).bcG = s.bcG := rfl

@[simp] theorem State.driveSck_bcB (b : Bool) (s : State) :
    (State.driveSck b s).bcB = s.bcB := rfl

@[simp] theorem State.driveSck_ready (b : Bool) (s : State) :
    (State.driveSck b s).ready = s.ready := rfl

@[simp] theorem State.driveSck_initStatus (b : Bool) (s : State) :
    (State.driveSck b s).initStatus = s.initStatus := rfl

@[simp] theorem State.driveSck_fault (b : Bool) (s : State) :
    (State.driveSck b s).fault = s.fault := rfl

@[simp] theorem State.driveSck_refusal (b : Bool) (s : State) :
    (State.driveSck b s).refusal = s.refusal := rfl

@[simp] theorem State.driveSck_trace (b : Bool) (s : State) :
    (State.driveSck b s).trace = s.trace ++ [.sck b] := rfl

@[simp] theorem State.driveSck_pc (b : Bool) (s : State) :
    (State.driveSck b s).pc = s.pc := rfl

@[simp] theorem State.driveSck_result (b : Bool) (s : State) :
    (State.driveSck b s).result = s.result := rfl

@[simp] theorem State.driveSck_inCritical (b : Bool) (s : State) :
    (State.driveSck b s).inCritical = s.inCritical := rfl

@[simp] theorem State.driveSck_txnHeld (b : Bool) (s : State) :
    (State.driveSck b s).txnHeld = s.txnHeld := rfl

@[simp] theorem State.driveSck_sck (b : Bool) (s : State) :
    (State.driveSck b s).sck = pinOfBit b := rfl

@[simp] theorem State.driveSck_sdo (b : Bool) (s : State) :
    (State.driveSck b s).sdo = s.sdo := rfl

@[simp] theorem State.driveSck_pinsConfigured (b : Bool) (s : State) :
    (State.driveSck b s).pinsConfigured = s.pinsConfigured := rfl

@[simp] theorem State.driveSck_position (b : Bool) (s : State) :
    (State.driveSck b s).position = s.position := rfl

@[simp] theorem State.driveSck_interruptsEnabled (b : Bool) (s : State) :
    (State.driveSck b s).interruptsEnabled = s.interruptsEnabled := rfl

@[simp] theorem State.driveSck_input (b : Bool) (s : State) :
    (State.driveSck b s).input = s.input := rfl

@[simp] theorem State.driveSck_draws (b : Bool) (s : State) :
    (State.driveSck b s).draws = s.draws := rfl

/-! ## State.driveSdo -/

@[simp] theorem State.driveSdo_params (b : Bool) (s : State) :
    (State.driveSdo b s).params = s.params := rfl

@[simp] theorem State.driveSdo_pwm (b : Bool) (s : State) :
    (State.driveSdo b s).pwm = s.pwm := rfl

@[simp] theorem State.driveSdo_bcR (b : Bool) (s : State) :
    (State.driveSdo b s).bcR = s.bcR := rfl

@[simp] theorem State.driveSdo_bcG (b : Bool) (s : State) :
    (State.driveSdo b s).bcG = s.bcG := rfl

@[simp] theorem State.driveSdo_bcB (b : Bool) (s : State) :
    (State.driveSdo b s).bcB = s.bcB := rfl

@[simp] theorem State.driveSdo_ready (b : Bool) (s : State) :
    (State.driveSdo b s).ready = s.ready := rfl

@[simp] theorem State.driveSdo_initStatus (b : Bool) (s : State) :
    (State.driveSdo b s).initStatus = s.initStatus := rfl

@[simp] theorem State.driveSdo_fault (b : Bool) (s : State) :
    (State.driveSdo b s).fault = s.fault := rfl

@[simp] theorem State.driveSdo_refusal (b : Bool) (s : State) :
    (State.driveSdo b s).refusal = s.refusal := rfl

@[simp] theorem State.driveSdo_trace (b : Bool) (s : State) :
    (State.driveSdo b s).trace = s.trace ++ [.sdo b] := rfl

@[simp] theorem State.driveSdo_pc (b : Bool) (s : State) :
    (State.driveSdo b s).pc = s.pc := rfl

@[simp] theorem State.driveSdo_result (b : Bool) (s : State) :
    (State.driveSdo b s).result = s.result := rfl

@[simp] theorem State.driveSdo_inCritical (b : Bool) (s : State) :
    (State.driveSdo b s).inCritical = s.inCritical := rfl

@[simp] theorem State.driveSdo_txnHeld (b : Bool) (s : State) :
    (State.driveSdo b s).txnHeld = s.txnHeld := rfl

@[simp] theorem State.driveSdo_sck (b : Bool) (s : State) :
    (State.driveSdo b s).sck = s.sck := rfl

@[simp] theorem State.driveSdo_sdo (b : Bool) (s : State) :
    (State.driveSdo b s).sdo = pinOfBit b := rfl

@[simp] theorem State.driveSdo_pinsConfigured (b : Bool) (s : State) :
    (State.driveSdo b s).pinsConfigured = s.pinsConfigured := rfl

@[simp] theorem State.driveSdo_position (b : Bool) (s : State) :
    (State.driveSdo b s).position = s.position := rfl

@[simp] theorem State.driveSdo_interruptsEnabled (b : Bool) (s : State) :
    (State.driveSdo b s).interruptsEnabled = s.interruptsEnabled := rfl

@[simp] theorem State.driveSdo_input (b : Bool) (s : State) :
    (State.driveSdo b s).input = s.input := rfl

@[simp] theorem State.driveSdo_draws (b : Bool) (s : State) :
    (State.driveSdo b s).draws = s.draws := rfl

/-! ## State.raise -/

@[simp] theorem State.raise_params (f : FaultRecord) (s : State) :
    (State.raise f s).params = s.params := rfl

@[simp] theorem State.raise_pwm (f : FaultRecord) (s : State) :
    (State.raise f s).pwm = s.pwm := rfl

@[simp] theorem State.raise_bcR (f : FaultRecord) (s : State) :
    (State.raise f s).bcR = s.bcR := rfl

@[simp] theorem State.raise_bcG (f : FaultRecord) (s : State) :
    (State.raise f s).bcG = s.bcG := rfl

@[simp] theorem State.raise_bcB (f : FaultRecord) (s : State) :
    (State.raise f s).bcB = s.bcB := rfl

@[simp] theorem State.raise_ready (f : FaultRecord) (s : State) :
    (State.raise f s).ready = s.ready := rfl

@[simp] theorem State.raise_initStatus (f : FaultRecord) (s : State) :
    (State.raise f s).initStatus = s.initStatus := rfl

@[simp] theorem State.raise_fault (f : FaultRecord) (s : State) :
    (State.raise f s).fault = some f := rfl

@[simp] theorem State.raise_refusal (f : FaultRecord) (s : State) :
    (State.raise f s).refusal = s.refusal := rfl

@[simp] theorem State.raise_trace (f : FaultRecord) (s : State) :
    (State.raise f s).trace = s.trace := rfl

@[simp] theorem State.raise_pc (f : FaultRecord) (s : State) :
    (State.raise f s).pc = s.pc := rfl

@[simp] theorem State.raise_result (f : FaultRecord) (s : State) :
    (State.raise f s).result = s.result := rfl

@[simp] theorem State.raise_inCritical (f : FaultRecord) (s : State) :
    (State.raise f s).inCritical = s.inCritical := rfl

@[simp] theorem State.raise_txnHeld (f : FaultRecord) (s : State) :
    (State.raise f s).txnHeld = s.txnHeld := rfl

@[simp] theorem State.raise_sck (f : FaultRecord) (s : State) :
    (State.raise f s).sck = s.sck := rfl

@[simp] theorem State.raise_sdo (f : FaultRecord) (s : State) :
    (State.raise f s).sdo = s.sdo := rfl

@[simp] theorem State.raise_pinsConfigured (f : FaultRecord) (s : State) :
    (State.raise f s).pinsConfigured = s.pinsConfigured := rfl

@[simp] theorem State.raise_position (f : FaultRecord) (s : State) :
    (State.raise f s).position = s.position := rfl

@[simp] theorem State.raise_interruptsEnabled (f : FaultRecord) (s : State) :
    (State.raise f s).interruptsEnabled = s.interruptsEnabled := rfl

@[simp] theorem State.raise_input (f : FaultRecord) (s : State) :
    (State.raise f s).input = s.input := rfl

@[simp] theorem State.raise_draws (f : FaultRecord) (s : State) :
    (State.raise f s).draws = s.draws := rfl

/-! ## State.refuse -/

@[simp] theorem State.refuse_params (r : RefReason) (s : State) :
    (State.refuse r s).params = s.params := rfl

@[simp] theorem State.refuse_pwm (r : RefReason) (s : State) :
    (State.refuse r s).pwm = s.pwm := rfl

@[simp] theorem State.refuse_bcR (r : RefReason) (s : State) :
    (State.refuse r s).bcR = s.bcR := rfl

@[simp] theorem State.refuse_bcG (r : RefReason) (s : State) :
    (State.refuse r s).bcG = s.bcG := rfl

@[simp] theorem State.refuse_bcB (r : RefReason) (s : State) :
    (State.refuse r s).bcB = s.bcB := rfl

@[simp] theorem State.refuse_ready (r : RefReason) (s : State) :
    (State.refuse r s).ready = s.ready := rfl

@[simp] theorem State.refuse_initStatus (r : RefReason) (s : State) :
    (State.refuse r s).initStatus = s.initStatus := rfl

@[simp] theorem State.refuse_fault (r : RefReason) (s : State) :
    (State.refuse r s).fault = s.fault := rfl

@[simp] theorem State.refuse_refusal (r : RefReason) (s : State) :
    (State.refuse r s).refusal = some r := rfl

@[simp] theorem State.refuse_trace (r : RefReason) (s : State) :
    (State.refuse r s).trace = s.trace := rfl

@[simp] theorem State.refuse_pc (r : RefReason) (s : State) :
    (State.refuse r s).pc = s.pc := rfl

@[simp] theorem State.refuse_result (r : RefReason) (s : State) :
    (State.refuse r s).result = s.result := rfl

@[simp] theorem State.refuse_inCritical (r : RefReason) (s : State) :
    (State.refuse r s).inCritical = s.inCritical := rfl

@[simp] theorem State.refuse_txnHeld (r : RefReason) (s : State) :
    (State.refuse r s).txnHeld = s.txnHeld := rfl

@[simp] theorem State.refuse_sck (r : RefReason) (s : State) :
    (State.refuse r s).sck = s.sck := rfl

@[simp] theorem State.refuse_sdo (r : RefReason) (s : State) :
    (State.refuse r s).sdo = s.sdo := rfl

@[simp] theorem State.refuse_pinsConfigured (r : RefReason) (s : State) :
    (State.refuse r s).pinsConfigured = s.pinsConfigured := rfl

@[simp] theorem State.refuse_position (r : RefReason) (s : State) :
    (State.refuse r s).position = s.position := rfl

@[simp] theorem State.refuse_interruptsEnabled (r : RefReason) (s : State) :
    (State.refuse r s).interruptsEnabled = s.interruptsEnabled := rfl

@[simp] theorem State.refuse_input (r : RefReason) (s : State) :
    (State.refuse r s).input = s.input := rfl

@[simp] theorem State.refuse_draws (r : RefReason) (s : State) :
    (State.refuse r s).draws = s.draws := rfl

/-! ## State.complete -/

@[simp] theorem State.complete_params (r : Result) (s : State) :
    (State.complete r s).params = s.params := rfl

@[simp] theorem State.complete_pwm (r : Result) (s : State) :
    (State.complete r s).pwm = s.pwm := rfl

@[simp] theorem State.complete_bcR (r : Result) (s : State) :
    (State.complete r s).bcR = s.bcR := rfl

@[simp] theorem State.complete_bcG (r : Result) (s : State) :
    (State.complete r s).bcG = s.bcG := rfl

@[simp] theorem State.complete_bcB (r : Result) (s : State) :
    (State.complete r s).bcB = s.bcB := rfl

@[simp] theorem State.complete_ready (r : Result) (s : State) :
    (State.complete r s).ready = s.ready := rfl

@[simp] theorem State.complete_initStatus (r : Result) (s : State) :
    (State.complete r s).initStatus = s.initStatus := rfl

@[simp] theorem State.complete_fault (r : Result) (s : State) :
    (State.complete r s).fault = s.fault := rfl

@[simp] theorem State.complete_refusal (r : Result) (s : State) :
    (State.complete r s).refusal = s.refusal := rfl

@[simp] theorem State.complete_trace (r : Result) (s : State) :
    (State.complete r s).trace = s.trace := rfl

@[simp] theorem State.complete_pc (r : Result) (s : State) :
    (State.complete r s).pc = s.pc + 1 := rfl

@[simp] theorem State.complete_result (r : Result) (s : State) :
    (State.complete r s).result = r := rfl

@[simp] theorem State.complete_inCritical (r : Result) (s : State) :
    (State.complete r s).inCritical = s.inCritical := rfl

@[simp] theorem State.complete_txnHeld (r : Result) (s : State) :
    (State.complete r s).txnHeld = s.txnHeld := rfl

@[simp] theorem State.complete_sck (r : Result) (s : State) :
    (State.complete r s).sck = s.sck := rfl

@[simp] theorem State.complete_sdo (r : Result) (s : State) :
    (State.complete r s).sdo = s.sdo := rfl

@[simp] theorem State.complete_pinsConfigured (r : Result) (s : State) :
    (State.complete r s).pinsConfigured = s.pinsConfigured := rfl

@[simp] theorem State.complete_position (r : Result) (s : State) :
    (State.complete r s).position = s.position := rfl

@[simp] theorem State.complete_interruptsEnabled (r : Result) (s : State) :
    (State.complete r s).interruptsEnabled = s.interruptsEnabled := rfl

@[simp] theorem State.complete_input (r : Result) (s : State) :
    (State.complete r s).input = s.input := rfl

@[simp] theorem State.complete_draws (r : Result) (s : State) :
    (State.complete r s).draws = s.draws := rfl

/-! ## State.atBit -/

@[simp] theorem State.atBit_params (k : Nat) (s : State) :
    (State.atBit k s).params = s.params := rfl

@[simp] theorem State.atBit_pwm (k : Nat) (s : State) :
    (State.atBit k s).pwm = s.pwm := rfl

@[simp] theorem State.atBit_bcR (k : Nat) (s : State) :
    (State.atBit k s).bcR = s.bcR := rfl

@[simp] theorem State.atBit_bcG (k : Nat) (s : State) :
    (State.atBit k s).bcG = s.bcG := rfl

@[simp] theorem State.atBit_bcB (k : Nat) (s : State) :
    (State.atBit k s).bcB = s.bcB := rfl

@[simp] theorem State.atBit_ready (k : Nat) (s : State) :
    (State.atBit k s).ready = s.ready := rfl

@[simp] theorem State.atBit_initStatus (k : Nat) (s : State) :
    (State.atBit k s).initStatus = s.initStatus := rfl

@[simp] theorem State.atBit_fault (k : Nat) (s : State) :
    (State.atBit k s).fault = s.fault := rfl

@[simp] theorem State.atBit_refusal (k : Nat) (s : State) :
    (State.atBit k s).refusal = s.refusal := rfl

@[simp] theorem State.atBit_trace (k : Nat) (s : State) :
    (State.atBit k s).trace = s.trace := rfl

@[simp] theorem State.atBit_pc (k : Nat) (s : State) :
    (State.atBit k s).pc = s.pc := rfl

@[simp] theorem State.atBit_result (k : Nat) (s : State) :
    (State.atBit k s).result = s.result := rfl

@[simp] theorem State.atBit_inCritical (k : Nat) (s : State) :
    (State.atBit k s).inCritical = s.inCritical := rfl

@[simp] theorem State.atBit_txnHeld (k : Nat) (s : State) :
    (State.atBit k s).txnHeld = s.txnHeld := rfl

@[simp] theorem State.atBit_sck (k : Nat) (s : State) :
    (State.atBit k s).sck = s.sck := rfl

@[simp] theorem State.atBit_sdo (k : Nat) (s : State) :
    (State.atBit k s).sdo = s.sdo := rfl

@[simp] theorem State.atBit_pinsConfigured (k : Nat) (s : State) :
    (State.atBit k s).pinsConfigured = s.pinsConfigured := rfl

@[simp] theorem State.atBit_position (k : Nat) (s : State) :
    (State.atBit k s).position = s.position.map fun p => { p with bit := k } := rfl

@[simp] theorem State.atBit_interruptsEnabled (k : Nat) (s : State) :
    (State.atBit k s).interruptsEnabled = s.interruptsEnabled := rfl

@[simp] theorem State.atBit_input (k : Nat) (s : State) :
    (State.atBit k s).input = s.input := rfl

@[simp] theorem State.atBit_draws (k : Nat) (s : State) :
    (State.atBit k s).draws = s.draws := rfl

/-! ## State.nextByte -/

@[simp] theorem State.nextByte_params (s : State) :
    (State.nextByte s).params = s.params := rfl

@[simp] theorem State.nextByte_pwm (s : State) :
    (State.nextByte s).pwm = s.pwm := rfl

@[simp] theorem State.nextByte_bcR (s : State) :
    (State.nextByte s).bcR = s.bcR := rfl

@[simp] theorem State.nextByte_bcG (s : State) :
    (State.nextByte s).bcG = s.bcG := rfl

@[simp] theorem State.nextByte_bcB (s : State) :
    (State.nextByte s).bcB = s.bcB := rfl

@[simp] theorem State.nextByte_ready (s : State) :
    (State.nextByte s).ready = s.ready := rfl

@[simp] theorem State.nextByte_initStatus (s : State) :
    (State.nextByte s).initStatus = s.initStatus := rfl

@[simp] theorem State.nextByte_fault (s : State) :
    (State.nextByte s).fault = s.fault := rfl

@[simp] theorem State.nextByte_refusal (s : State) :
    (State.nextByte s).refusal = s.refusal := rfl

@[simp] theorem State.nextByte_trace (s : State) :
    (State.nextByte s).trace = s.trace := rfl

@[simp] theorem State.nextByte_pc (s : State) :
    (State.nextByte s).pc = s.pc := rfl

@[simp] theorem State.nextByte_result (s : State) :
    (State.nextByte s).result = s.result := rfl

@[simp] theorem State.nextByte_inCritical (s : State) :
    (State.nextByte s).inCritical = s.inCritical := rfl

@[simp] theorem State.nextByte_txnHeld (s : State) :
    (State.nextByte s).txnHeld = s.txnHeld := rfl

@[simp] theorem State.nextByte_sck (s : State) :
    (State.nextByte s).sck = s.sck := rfl

@[simp] theorem State.nextByte_sdo (s : State) :
    (State.nextByte s).sdo = s.sdo := rfl

@[simp] theorem State.nextByte_pinsConfigured (s : State) :
    (State.nextByte s).pinsConfigured = s.pinsConfigured := rfl

@[simp] theorem State.nextByte_position (s : State) :
    (State.nextByte s).position = s.position.map fun p => { device := p.device, byte := p.byte + 1, bit := 7 } := rfl

@[simp] theorem State.nextByte_interruptsEnabled (s : State) :
    (State.nextByte s).interruptsEnabled = s.interruptsEnabled := rfl

@[simp] theorem State.nextByte_input (s : State) :
    (State.nextByte s).input = s.input := rfl

@[simp] theorem State.nextByte_draws (s : State) :
    (State.nextByte s).draws = s.draws := rfl

/-! ## State.atFrame -/

@[simp] theorem State.atFrame_params (n : Nat) (s : State) :
    (State.atFrame n s).params = s.params := rfl

@[simp] theorem State.atFrame_pwm (n : Nat) (s : State) :
    (State.atFrame n s).pwm = s.pwm := rfl

@[simp] theorem State.atFrame_bcR (n : Nat) (s : State) :
    (State.atFrame n s).bcR = s.bcR := rfl

@[simp] theorem State.atFrame_bcG (n : Nat) (s : State) :
    (State.atFrame n s).bcG = s.bcG := rfl

@[simp] theorem State.atFrame_bcB (n : Nat) (s : State) :
    (State.atFrame n s).bcB = s.bcB := rfl

@[simp] theorem State.atFrame_ready (n : Nat) (s : State) :
    (State.atFrame n s).ready = s.ready := rfl

@[simp] theorem State.atFrame_initStatus (n : Nat) (s : State) :
    (State.atFrame n s).initStatus = s.initStatus := rfl

@[simp] theorem State.atFrame_fault (n : Nat) (s : State) :
    (State.atFrame n s).fault = s.fault := rfl

@[simp] theorem State.atFrame_refusal (n : Nat) (s : State) :
    (State.atFrame n s).refusal = s.refusal := rfl

@[simp] theorem State.atFrame_trace (n : Nat) (s : State) :
    (State.atFrame n s).trace = s.trace := rfl

@[simp] theorem State.atFrame_pc (n : Nat) (s : State) :
    (State.atFrame n s).pc = s.pc := rfl

@[simp] theorem State.atFrame_result (n : Nat) (s : State) :
    (State.atFrame n s).result = s.result := rfl

@[simp] theorem State.atFrame_inCritical (n : Nat) (s : State) :
    (State.atFrame n s).inCritical = s.inCritical := rfl

@[simp] theorem State.atFrame_txnHeld (n : Nat) (s : State) :
    (State.atFrame n s).txnHeld = s.txnHeld := rfl

@[simp] theorem State.atFrame_sck (n : Nat) (s : State) :
    (State.atFrame n s).sck = s.sck := rfl

@[simp] theorem State.atFrame_sdo (n : Nat) (s : State) :
    (State.atFrame n s).sdo = s.sdo := rfl

@[simp] theorem State.atFrame_pinsConfigured (n : Nat) (s : State) :
    (State.atFrame n s).pinsConfigured = s.pinsConfigured := rfl

@[simp] theorem State.atFrame_position (n : Nat) (s : State) :
    (State.atFrame n s).position = some { device := n, byte := 0, bit := 7 } := rfl

@[simp] theorem State.atFrame_interruptsEnabled (n : Nat) (s : State) :
    (State.atFrame n s).interruptsEnabled = s.interruptsEnabled := rfl

@[simp] theorem State.atFrame_input (n : Nat) (s : State) :
    (State.atFrame n s).input = s.input := rfl

@[simp] theorem State.atFrame_draws (n : Nat) (s : State) :
    (State.atFrame n s).draws = s.draws := rfl

/-! ## State.dropOpcode -/

@[simp] theorem State.dropOpcode_params (s : State) :
    (State.dropOpcode s).params = s.params := rfl

@[simp] theorem State.dropOpcode_pwm (s : State) :
    (State.dropOpcode s).pwm = s.pwm := rfl

@[simp] theorem State.dropOpcode_bcR (s : State) :
    (State.dropOpcode s).bcR = s.bcR := rfl

@[simp] theorem State.dropOpcode_bcG (s : State) :
    (State.dropOpcode s).bcG = s.bcG := rfl

@[simp] theorem State.dropOpcode_bcB (s : State) :
    (State.dropOpcode s).bcB = s.bcB := rfl

@[simp] theorem State.dropOpcode_ready (s : State) :
    (State.dropOpcode s).ready = s.ready := rfl

@[simp] theorem State.dropOpcode_initStatus (s : State) :
    (State.dropOpcode s).initStatus = s.initStatus := rfl

@[simp] theorem State.dropOpcode_fault (s : State) :
    (State.dropOpcode s).fault = s.fault := rfl

@[simp] theorem State.dropOpcode_refusal (s : State) :
    (State.dropOpcode s).refusal = s.refusal := rfl

@[simp] theorem State.dropOpcode_trace (s : State) :
    (State.dropOpcode s).trace = s.trace := rfl

@[simp] theorem State.dropOpcode_pc (s : State) :
    (State.dropOpcode s).pc = s.pc := rfl

@[simp] theorem State.dropOpcode_result (s : State) :
    (State.dropOpcode s).result = s.result := rfl

@[simp] theorem State.dropOpcode_inCritical (s : State) :
    (State.dropOpcode s).inCritical = s.inCritical := rfl

@[simp] theorem State.dropOpcode_txnHeld (s : State) :
    (State.dropOpcode s).txnHeld = s.txnHeld := rfl

@[simp] theorem State.dropOpcode_sck (s : State) :
    (State.dropOpcode s).sck = s.sck := rfl

@[simp] theorem State.dropOpcode_sdo (s : State) :
    (State.dropOpcode s).sdo = s.sdo := rfl

@[simp] theorem State.dropOpcode_pinsConfigured (s : State) :
    (State.dropOpcode s).pinsConfigured = s.pinsConfigured := rfl

@[simp] theorem State.dropOpcode_position (s : State) :
    (State.dropOpcode s).position = s.position := rfl

@[simp] theorem State.dropOpcode_interruptsEnabled (s : State) :
    (State.dropOpcode s).interruptsEnabled = s.interruptsEnabled := rfl

@[simp] theorem State.dropOpcode_input (s : State) :
    (State.dropOpcode s).input = s.input.drop 1 := rfl

@[simp] theorem State.dropOpcode_draws (s : State) :
    (State.dropOpcode s).draws = s.draws := rfl

/-! ## State.countDraw -/

@[simp] theorem State.countDraw_params (s : State) :
    (State.countDraw s).params = s.params := rfl

@[simp] theorem State.countDraw_pwm (s : State) :
    (State.countDraw s).pwm = s.pwm := rfl

@[simp] theorem State.countDraw_bcR (s : State) :
    (State.countDraw s).bcR = s.bcR := rfl

@[simp] theorem State.countDraw_bcG (s : State) :
    (State.countDraw s).bcG = s.bcG := rfl

@[simp] theorem State.countDraw_bcB (s : State) :
    (State.countDraw s).bcB = s.bcB := rfl

@[simp] theorem State.countDraw_ready (s : State) :
    (State.countDraw s).ready = s.ready := rfl

@[simp] theorem State.countDraw_initStatus (s : State) :
    (State.countDraw s).initStatus = s.initStatus := rfl

@[simp] theorem State.countDraw_fault (s : State) :
    (State.countDraw s).fault = s.fault := rfl

@[simp] theorem State.countDraw_refusal (s : State) :
    (State.countDraw s).refusal = s.refusal := rfl

@[simp] theorem State.countDraw_trace (s : State) :
    (State.countDraw s).trace = s.trace := rfl

@[simp] theorem State.countDraw_pc (s : State) :
    (State.countDraw s).pc = s.pc := rfl

@[simp] theorem State.countDraw_result (s : State) :
    (State.countDraw s).result = s.result := rfl

@[simp] theorem State.countDraw_inCritical (s : State) :
    (State.countDraw s).inCritical = s.inCritical := rfl

@[simp] theorem State.countDraw_txnHeld (s : State) :
    (State.countDraw s).txnHeld = s.txnHeld := rfl

@[simp] theorem State.countDraw_sck (s : State) :
    (State.countDraw s).sck = s.sck := rfl

@[simp] theorem State.countDraw_sdo (s : State) :
    (State.countDraw s).sdo = s.sdo := rfl

@[simp] theorem State.countDraw_pinsConfigured (s : State) :
    (State.countDraw s).pinsConfigured = s.pinsConfigured := rfl

@[simp] theorem State.countDraw_position (s : State) :
    (State.countDraw s).position = s.position := rfl

@[simp] theorem State.countDraw_interruptsEnabled (s : State) :
    (State.countDraw s).interruptsEnabled = s.interruptsEnabled := rfl

@[simp] theorem State.countDraw_input (s : State) :
    (State.countDraw s).input = s.input := rfl

@[simp] theorem State.countDraw_draws (s : State) :
    (State.countDraw s).draws = s.draws + 1 := rfl

/-! ## recordInit -/

@[simp] theorem recordInit_params (t : Bool) (s : State) :
    (recordInit t s).params = s.params := rfl

@[simp] theorem recordInit_pwm (t : Bool) (s : State) :
    (recordInit t s).pwm = s.pwm := rfl

@[simp] theorem recordInit_bcR (t : Bool) (s : State) :
    (recordInit t s).bcR = s.bcR := rfl

@[simp] theorem recordInit_bcG (t : Bool) (s : State) :
    (recordInit t s).bcG = s.bcG := rfl

@[simp] theorem recordInit_bcB (t : Bool) (s : State) :
    (recordInit t s).bcB = s.bcB := rfl

@[simp] theorem recordInit_ready (t : Bool) (s : State) :
    (recordInit t s).ready = t := rfl

@[simp] theorem recordInit_initStatus (t : Bool) (s : State) :
    (recordInit t s).initStatus = if t then .ok else .transportFail := rfl

@[simp] theorem recordInit_fault (t : Bool) (s : State) :
    (recordInit t s).fault = s.fault := rfl

@[simp] theorem recordInit_refusal (t : Bool) (s : State) :
    (recordInit t s).refusal = s.refusal := rfl

@[simp] theorem recordInit_trace (t : Bool) (s : State) :
    (recordInit t s).trace = s.trace := rfl

@[simp] theorem recordInit_pc (t : Bool) (s : State) :
    (recordInit t s).pc = s.pc := rfl

@[simp] theorem recordInit_result (t : Bool) (s : State) :
    (recordInit t s).result = s.result := rfl

@[simp] theorem recordInit_inCritical (t : Bool) (s : State) :
    (recordInit t s).inCritical = s.inCritical := rfl

@[simp] theorem recordInit_txnHeld (t : Bool) (s : State) :
    (recordInit t s).txnHeld = s.txnHeld := rfl

@[simp] theorem recordInit_sck (t : Bool) (s : State) :
    (recordInit t s).sck = s.sck := rfl

@[simp] theorem recordInit_sdo (t : Bool) (s : State) :
    (recordInit t s).sdo = s.sdo := rfl

@[simp] theorem recordInit_pinsConfigured (t : Bool) (s : State) :
    (recordInit t s).pinsConfigured = s.pinsConfigured := rfl

@[simp] theorem recordInit_position (t : Bool) (s : State) :
    (recordInit t s).position = s.position := rfl

@[simp] theorem recordInit_interruptsEnabled (t : Bool) (s : State) :
    (recordInit t s).interruptsEnabled = s.interruptsEnabled := rfl

@[simp] theorem recordInit_input (t : Bool) (s : State) :
    (recordInit t s).input = s.input := rfl

@[simp] theorem recordInit_draws (t : Bool) (s : State) :
    (recordInit t s).draws = s.draws := rfl

end Sys2Proof.Machine
end

