-- ==== Sys2Proof/Laws/Ops.lean ====
section
/-! SUPPORT. One lemma per shared operation: what it answers, in every case. -/

namespace Sys2Proof.Machine

/-! ## How an operation starts -/

/-- Where a fault or refusal stands, nothing executes (R131, R136). -/
theorem hostOp_halted {s : State} (h : s.halted = true) (body : State → StepOutcome) : hostOp s body = .next s := by
  simp [hostOp, h]

/-- Where a WRITE is in progress, the operation is refused (R155). -/
theorem hostOp_busy {s : State} (h : s.halted = false) (hb : s.busy = true) (body : State → StepOutcome) :
    hostOp s body = .next (s.refuse .overlap) := by
  simp [hostOp, h, hb]

/-- In every other state, the operation's own body runs. -/
theorem hostOp_live {s : State} (h : s.halted = false) (hb : s.busy = false) (body : State → StepOutcome) :
    hostOp s body = body s := by
  simp [hostOp, h, hb]

/-- Everything `hostOp` can do. -/
theorem hostOp_cases (s : State) (body : State → StepOutcome) :
    (s.halted = true ∧ hostOp s body = .next s) ∨
    (s.halted = false ∧ s.busy = true ∧ hostOp s body = .next (s.refuse .overlap)) ∨
    (s.halted = false ∧ s.busy = false ∧ hostOp s body = body s) := by
  cases h : s.halted
  · cases hb : s.busy
    · exact .inr (.inr ⟨rfl, rfl, hostOp_live h hb body⟩)
    · exact .inr (.inl ⟨rfl, rfl, hostOp_busy h hb body⟩)
  · exact .inl ⟨rfl, hostOp_halted h body⟩

/-- A state that is not halted has no fault. -/
theorem State.fault_of_not_halted {s : State} (h : s.halted = false) : s.fault = none := by
  unfold State.halted at h
  cases hf : s.fault <;> simp_all

/-- A state that is not halted has no refusal. -/
theorem State.refusal_of_not_halted {s : State} (h : s.halted = false) : s.refusal = none := by
  unfold State.halted State.refused at h
  cases hf : s.refusal <;> simp_all

theorem State.halted_congr {s t : State} (h1 : t.fault = s.fault) (h2 : t.refusal = s.refusal) :
    t.halted = s.halted := by
  unfold State.halted State.refused; rw [h1, h2]

/-- A state that is not busy has no serializer position. -/
theorem State.position_of_not_busy {s : State} (h : s.busy = false) : s.position = none := by
  unfold State.busy at h
  cases hf : s.position <;> simp_all

@[simp] theorem withBuffer_present {s : State} (h : s.params.allocOk = true) (o : Opcode) (body : State → State) :
    withBuffer o s body = .next (body s) := by
  simp [withBuffer, h]

@[simp] theorem withBuffer_absent {s : State} (h : s.params.allocOk = false) (o : Opcode) (body : State → State) :
    withBuffer o s body = .next (s.raise (.noBuffer o)) := by
  simp [withBuffer, h]

/-! ## One set_channel step (R78) -/

theorem setChannel_faulted {s : State} (h : s.fault.isSome = true) (o : Opcode) (j : Nat) (v : Word) :
    setChannel o j v s = s := by
  simp [setChannel, h]

theorem setChannel_below {s : State} (hf : s.fault = none) {j : Nat} (hj : j < channelCount s.params) (o : Opcode)
    (v : Word) : setChannel o j v s = s.putChannel j v := by
  simp [setChannel, hf, hj]

theorem setChannel_at {s : State} (hf : s.fault = none) {j : Nat} (hj : j = channelCount s.params) (o : Opcode)
    (v : Word) : setChannel o j v s = s.raise (.chOverrun o j) := by
  simp [setChannel, hf, hj]

theorem setChannel_beyond {s : State} (hf : s.fault = none) {j : Nat} (hj : channelCount s.params < j) (o : Opcode)
    (v : Word) : setChannel o j v s = s := by
  have h1 : ¬j < channelCount s.params := by omega
  have h2 : ¬j = channelCount s.params := by omega
  simp [setChannel, hf, h1, h2]

theorem completeUnlessFaulted_none {s : State} (hf : s.fault = none) (r : Result) :
    s.completeUnlessFaulted r = s.complete r := by
  simp [State.completeUnlessFaulted, hf]

theorem completeUnlessFaulted_some {s : State} (hf : s.fault.isSome = true) (r : Result) :
    s.completeUnlessFaulted r = s := by
  simp [State.completeUnlessFaulted, hf]

/-! ## Reading a channel after writing one -/

/-- The channel written holds the value (R79). -/
theorem channel_putChannel_same {s : State} (h : s.pwm.wf = true) (i : Nat) (v : Word) :
    (s.putChannel i v).channel i = v := Memory.read_write_same h i v

/-- Every other channel is unchanged. -/
theorem channel_putChannel_ne (s : State) (i : Nat) (v : Word) {j : Nat} (hj : j ≠ i) :
    (s.putChannel i v).channel j = s.channel j := Memory.read_write_ne s.pwm i v hj

/-! ## LED operands (R81) -/

/-- Below LED `4N` all three channels exist. -/
theorem ledChannel_below {p : Params} {k : Word} (h : k.toNat < 4 * p.chainLength) {c : Nat} (hc : c < 3) :
    ledChannel k c < channelCount p := by
  simp only [ledChannel, channelCount]; omega

/-- Exactly LED `4N` starts at index `C`. -/
theorem ledChannel_at {p : Params} {k : Word} (h : k.toNat = 4 * p.chainLength) : ledChannel k 0 = channelCount p := by
  simp only [ledChannel, channelCount]; omega

/-- Beyond LED `4N` all three indices lie beyond `C`. -/
theorem ledChannel_beyond {p : Params} {k : Word} (h : 4 * p.chainLength < k.toNat) (c : Nat) :
    channelCount p < ledChannel k c := by
  simp only [ledChannel, channelCount]; omega

/-- Below LED `4N` the three set_channel steps write three channels (R82). -/
theorem setLed_below {s : State} (hf : s.fault = none) {k : Word} (hk : k.toNat < 4 * s.params.chainLength)
    (o : Opcode) (r g b : Word) :
    setLed o k r g b s =
      ((s.putChannel (ledChannel k 0) r).putChannel (ledChannel k 1) g).putChannel (ledChannel k 2) b := by
  have h0 : ledChannel k 0 < channelCount s.params := ledChannel_below hk (by omega)
  have h1 : ledChannel k 1 < channelCount s.params := ledChannel_below hk (by omega)
  have h2 : ledChannel k 2 < channelCount s.params := ledChannel_below hk (by omega)
  rw [setLed, setChannel_below hf h0, setChannel_below (s := s.putChannel _ _) hf h1,
    setChannel_below (s := (s.putChannel _ _).putChannel _ _) hf h2]

/-- At LED `4N` the first step faults and the others do nothing (R81, R82). -/
theorem setLed_at {s : State} (hf : s.fault = none) {k : Word} (hk : k.toNat = 4 * s.params.chainLength)
    (o : Opcode) (r g b : Word) :
    setLed o k r g b s =
      s.raise (.chOverrun o (channelCount s.params)) := by
  rw [setLed, setChannel_at hf (ledChannel_at hk), ledChannel_at hk, setChannel_faulted rfl, setChannel_faulted rfl]

/-- Beyond LED `4N` none of the three steps does anything (R81, R82). -/
theorem setLed_beyond {s : State} (hf : s.fault = none) {k : Word} (hk : 4 * s.params.chainLength < k.toNat)
    (o : Opcode) (r g b : Word) :
    setLed o k r g b s = s := by
  rw [setLed, setChannel_beyond hf (ledChannel_beyond hk 0), setChannel_beyond hf (ledChannel_beyond hk 1),
    setChannel_beyond hf (ledChannel_beyond hk 2)]

/-- The clamp of a brightness operand (R67, R87). -/
theorem clampBright_toNat (x : Byte) : (clampBright x).toNat = min x.toNat 127 := by
  simp only [clampBright, BitVec.toNat_ofNat]; omega

/-! ## BEGIN's two ends (R124) -/

/-- Everything BEGIN does with a channel buffer. -/
theorem initialiseTransport_eq (s : State) : initialiseTransport s = { s with
    trace := s.trace ++ [if s.params.transport = .softwareBitBang then .configPins else .initPeripheral]
    pinsConfigured := if s.params.transport = .softwareBitBang then true else s.pinsConfigured
    initStatus := if Config.transportOk s.draws then .ok else .transportFail
    ready := Config.transportOk s.draws
    result := .bool (Config.transportOk s.draws), pc := s.pc + 1, draws := s.draws + 1 } := by
  cases ht : s.params.transport <;>
    simp [initialiseTransport, configureTransport, ht, recordInit, State.complete, State.countDraw, State.emit]

/-- Everything BEGIN does without a channel buffer. -/
theorem reportAllocFail_eq (s : State) : reportAllocFail s = { s with
    initStatus := .allocFail, ready := false, result := .bool false, pc := s.pc + 1 } := rfl

end Sys2Proof.Machine
end

