-- ==== Sys2Proof/Laws/Transmit.lean ====
section
/-! SUPPORT. What the serializer's operations do, each said once: the events they append, the pins they leave, where the
serializer then stands, and that nothing else changes. -/

namespace Sys2Proof.Machine

/-! ## Bits -/

/-- Bits `k` down to 0 of a byte. -/
def bitsFrom (x : Byte) : Nat → List Bool
  | 0 => [x.getLsbD 0]
  | k + 1 => x.getLsbD (k + 1) :: bitsFrom x k

theorem bitsFrom_seven (x : Byte) : bitsFrom x 7 = msbFirst x := rfl

/-- The pin events of bits `k` down to 0, in the order of R112. -/
theorem bitsFrom_bitEvents (x : Byte) (k : Nat) : (bitsFrom x k).flatMap bitEvents =
    (List.range (k + 1)).reverse.flatMap fun j => [.sck false, .sdo (x.getLsbD j), .sck true] := by
  have h : bitsFrom x k = (List.range (k + 1)).reverse.map x.getLsbD := by
    induction k with
    | zero => rfl
    | succ k ih => rw [bitsFrom, ih, List.range_succ (n := k + 1)]; simp
  rw [h, List.flatMap_map]; rfl

theorem driveBit_eq (x : Byte) (k : Nat) (s : State) :
    driveBit x k s = { s with
      trace := s.trace ++ bitEvents (x.getLsbD k), sck := .high, sdo := pinOfBit (x.getLsbD k) } := by
  simp [driveBit, State.driveSck, State.driveSdo, State.emit, bitEvents, pinOfBit]

/-- The bits of a byte from `k` down, then the move to the next byte. -/
theorem bitbangFrom_nextByte (x : Byte) (k : Nat) (s : State) :
    (bitbangFrom x k s).nextByte = { s with
      trace := s.trace ++ (bitsFrom x k).flatMap bitEvents, sck := .high, sdo := pinOfBit (x.getLsbD 0)
      position := s.nextByte.position } := by
  induction k generalizing s with
  | zero => simp [bitbangFrom, driveBit_eq, State.nextByte, bitsFrom]
  | succ k ih =>
    rw [bitbangFrom, ih]
    simp [driveBit_eq, State.atBit, State.nextByte, bitsFrom, Function.comp_def]

/-! ## Bytes -/

/-- The data line after a byte: its bit 0 under the software transport (R112, R114). -/
def sdoAfter (t : Transport) (old : PinLevel) (x : Byte) : PinLevel :=
  match t with
  | .softwareBitBang => pinOfBit (x.getLsbD 0)
  | .hardwarePeripheral => old

/-- The clock line after a byte: high under the software transport (R114). -/
def sckAfter (t : Transport) (old : PinLevel) : PinLevel :=
  match t with
  | .softwareBitBang => .high
  | .hardwarePeripheral => old

/-- Everything one transfer does (R110, R112). -/
theorem transfer_eq (x : Byte) (s : State) :
    transfer x s = { s with
      trace := s.trace ++ transferEvents s.params.transport x
      sck := sckAfter s.params.transport s.sck
      sdo := sdoAfter s.params.transport s.sdo x
      position := s.nextByte.position } := by
  cases ht : s.params.transport
  · simp only [transfer, finishByte, if_true, State.emit_params, ht]
    rw [bitbangFrom_nextByte, bitsFrom_seven]
    simp [State.emit, State.nextByte, transferEvents, sckAfter, sdoAfter]
  · simp only [transfer, finishByte, if_true, State.emit_params, ht]
    simp [State.emit, State.nextByte, transferEvents, sckAfter, sdoAfter]

/-- Transfers of a list of bytes, in order. -/
def transferAll (bs : List Byte) (s : State) : State := bs.foldl (fun s x => transfer x s) s

@[simp] theorem transferAll_nil (s : State) : transferAll [] s = s := rfl

@[simp] theorem transferAll_cons (x : Byte) (bs : List Byte) (s : State) :
    transferAll (x :: bs) s = transferAll bs (transfer x s) := rfl

theorem transferAll_append (as bs : List Byte) (s : State) :
    transferAll (as ++ bs) s = transferAll bs (transferAll as s) := List.foldl_append

/-- Everything a list of transfers does but for the position. -/
theorem transferAll_eq (bs : List Byte) (s : State) :
    transferAll bs s = { s with
      trace := s.trace ++ bs.flatMap (transferEvents s.params.transport)
      sck := bs.foldl (fun l _ => sckAfter s.params.transport l) s.sck
      sdo := bs.foldl (fun l x => sdoAfter s.params.transport l x) s.sdo
      position := (transferAll bs s).position } := by
  induction bs generalizing s with
  | nil => simp
  | cons x bs ih =>
    rw [transferAll_cons, ih, transfer_eq]
    simp

/-- Where the serializer stands after a list of transfers (R36). -/
theorem transferAll_position (bs : List Byte) (s : State) (n b : Nat)
    (h : s.position = some { device := n, byte := b, bit := 7 }) :
    (transferAll bs s).position = some { device := n, byte := b + bs.length, bit := 7 } := by
  induction bs generalizing s b with
  | nil => simpa using h
  | cons x bs ih =>
    rw [transferAll_cons, ih (transfer x s) (b + 1)]
    · simp; omega
    · simp [transfer_eq, h]

@[simp] theorem transferAll_params (bs : List Byte) (s : State) : (transferAll bs s).params = s.params := by
  rw [transferAll_eq]

@[simp] theorem transferAll_pwm (bs : List Byte) (s : State) : (transferAll bs s).pwm = s.pwm := by
  rw [transferAll_eq]

@[simp] theorem transferAll_channel (bs : List Byte) (s : State) (i : Nat) :
    (transferAll bs s).channel i = s.channel i := by
  simp [State.channel]

/-! ## Frames -/

theorem sendCommand_eq (cmd : Cmd) (s : State) : sendCommand cmd s = transferAll (cmdBytes cmd) s := rfl

theorem sendChannel_eq (n : Nat) (s : State) (c : Nat) :
    sendChannel n s c = transferAll (encodeWord (s.channel (deviceChannel n c))) s := rfl

/-- Channels in any order, as one list of transfers. -/
theorem sendChannels_eq (n : Nat) (cs : List Nat) (s : State) :
    cs.foldl (sendChannel n) s = transferAll (cs.flatMap fun c => encodeWord (s.channel (deviceChannel n c))) s := by
  induction cs generalizing s with
  | nil => rfl
  | cons c cs ih =>
    rw [List.foldl_cons, ih, List.flatMap_cons, transferAll_append, sendChannel_eq]
    simp only [transferAll_channel]

/-- The bytes of a frame, written over the state's own registers. -/
theorem sendFrame_eq (s u : State) (n : Nat) (hr : u.bcR = s.bcR) (hg : u.bcG = s.bcG) (hb : u.bcB = s.bcB)
    (hp : u.pwm = s.pwm) :
    sendFrame (buildCmd u.bcR u.bcG u.bcB) u n = transferAll (deviceFrame s n) (u.atFrame n) := by
  have hc : ∀ i, (u.atFrame n).channel i = s.channel i := fun i => by simp [State.channel, hp]
  simp only [sendFrame, sendCommand_eq, sendChannels_eq, transferAll_channel, deviceFrame, transferAll_append, hc, hr, hg,
    hb]

/-- Frames of any devices in order: their bytes, transferred, whatever position stood before (R100). The registers are
those of a state `s` with the same store. -/
theorem sendFrameList_eq (s : State) (ns : List Nat) (u : State) (hr : u.bcR = s.bcR) (hg : u.bcG = s.bcG)
    (hb : u.bcB = s.bcB) (hp : u.pwm = s.pwm) :
    ns.foldl (sendFrame (buildCmd s.bcR s.bcG s.bcB)) u = { u with
      trace := u.trace ++ (ns.flatMap (deviceFrame s)).flatMap (transferEvents u.params.transport)
      sck := (ns.flatMap (deviceFrame s)).foldl (fun l _ => sckAfter u.params.transport l) u.sck
      sdo := (ns.flatMap (deviceFrame s)).foldl (fun l x => sdoAfter u.params.transport l x) u.sdo
      position := (ns.foldl (sendFrame (buildCmd s.bcR s.bcG s.bcB)) u).position } := by
  induction ns generalizing u with
  | nil => simp
  | cons n ns ih =>
    have hf : sendFrame (buildCmd s.bcR s.bcG s.bcB) u n = transferAll (deviceFrame s n) (u.atFrame n) := by
      rw [← sendFrame_eq s u n hr hg hb hp, hr, hg, hb]
    rw [List.foldl_cons, hf, transferAll_eq, ih _ (by simpa using hr) (by simpa using hg) (by simpa using hb)
      (by simpa using hp)]
    simp [List.flatMap_cons, List.flatMap_append, List.foldl_append]

/-- Everything sending all frames does but for the position: the chain stream, transferred (R64, R93). -/
theorem sendFrames_eq (s u : State) (hr : u.bcR = s.bcR) (hg : u.bcG = s.bcG) (hb : u.bcB = s.bcB)
    (hp : u.pwm = s.pwm) (hq : u.params = s.params) :
    sendFrames (buildCmd s.bcR s.bcG s.bcB) u = { u with
      trace := u.trace ++ (chainStream s).flatMap (transferEvents s.params.transport)
      sck := (chainStream s).foldl (fun l _ => sckAfter s.params.transport l) u.sck
      sdo := (chainStream s).foldl (fun l x => sdoAfter s.params.transport l x) u.sdo
      position := (sendFrames (buildCmd s.bcR s.bcG s.bcB) u).position } := by
  have h := sendFrameList_eq s (List.range u.params.chainLength) u hr hg hb hp
  rw [hq] at h
  rw [sendFrames, chainStream, hq]
  exact h

/-- The opening bracket (R102). -/
theorem openTransmission_eq (s : State) : openTransmission s = { s with
    trace := s.trace ++ [.enterCritical, .beginTxn], inCritical := true, txnHeld := true
    interruptsEnabled := false } := by
  simp [openTransmission, State.emit]

/-- The closing bracket, and WRITE's completion (R102, R118, R121). -/
theorem closeTransmission_eq (s : State) : closeTransmission s = { s with
    trace := s.trace ++ [.delay (settleMicros s.params), .endTxn, .exitCritical]
    inCritical := false, txnHeld := false, interruptsEnabled := true, position := none
    result := .nothing, pc := s.pc + 1 } := by
  simp [closeTransmission, State.emit, State.complete]

/-- Everything one transmission does (R93, R103): the events appended, the pins, and what stands at its end. -/
theorem transmit_eq (s : State) : transmit s = { s with
    trace := s.trace ++ transmissionEvents s
    sck := (chainStream s).foldl (fun l _ => sckAfter s.params.transport l) s.sck
    sdo := (chainStream s).foldl (fun l x => sdoAfter s.params.transport l x) s.sdo
    inCritical := false, txnHeld := false, interruptsEnabled := true, position := none
    result := .nothing, pc := s.pc + 1 } := by
  have ho := openTransmission_eq s
  rw [transmit, sendFrames_eq s (openTransmission s) (by rw [ho]) (by rw [ho]) (by rw [ho]) (by rw [ho]) (by rw [ho]),
    closeTransmission_eq, ho]
  simp [transmissionEvents]

/-- A command word changes nothing but the trace, the pins and the position. -/
theorem sendCommand_frame (cmd : Cmd) (s : State) : sendCommand cmd s = { s with
    trace := s.trace ++ (cmdBytes cmd).flatMap (transferEvents s.params.transport)
    sck := (sendCommand cmd s).sck, sdo := (sendCommand cmd s).sdo, position := (sendCommand cmd s).position } := by
  rw [sendCommand_eq, transferAll_eq]

/-- What is left of a byte changes nothing but the trace, the pins and the position. -/
theorem finishByte_frame (x : Byte) (k : Nat) (s : State) : finishByte x k s = { s with
    trace := s.trace ++ ((if k = 7 then [.byte x] else []) ++
      if s.params.transport = .softwareBitBang then (bitsFrom x k).flatMap bitEvents else [])
    sck := sckAfter s.params.transport s.sck, sdo := sdoAfter s.params.transport s.sdo x
    position := s.nextByte.position } := by
  have hp : (if k = 7 then s.emit (.byte x) else s).params = s.params := by split <;> rfl
  cases ht : s.params.transport
  · simp only [finishByte, hp, ht, bitbangFrom_nextByte]
    by_cases hk : k = 7 <;> simp [hk, State.emit, State.nextByte, sckAfter, sdoAfter]
  · simp only [finishByte, hp, ht]
    by_cases hk : k = 7 <;> simp [hk, State.emit, State.nextByte, sckAfter, sdoAfter]

end Sys2Proof.Machine
end

