-- ==== Sys2Proof/Laws/Exec.lean ====
section
/-! SUPPORT. Everything an instruction can do, said once: it answers a next state in one of five ways. -/

namespace Sys2Proof.Machine

/-- How an operation of a live state completes. -/
inductive Completes (i : Instr) (s t : State) : Prop where
  | beginDrawn (hi : i = .begin) (ha : s.params.allocOk = true) (ht : t = initialiseTransport s)
  | beginFailed (hi : i = .begin) (ha : s.params.allocOk = false) (ht : t = reportAllocFail s)
  | setch (idx val : Word) (hi : i = .setch idx val) (ha : s.params.allocOk = true)
      (h : idx.toNat < channelCount s.params) (ht : t = (s.putChannel idx.toNat val).complete .nothing)
  | setled (k r g b : Word) (hi : i = .setled k r g b) (ha : s.params.allocOk = true)
      (h : k.toNat < 4 * s.params.chainLength)
      (ht : t = (((s.putChannel (ledChannel k 0) r).putChannel (ledChannel k 1) g).putChannel (ledChannel k 2) b).complete
        .nothing)
  | bright (hi : (∃ r g b, i = .setbc r g b) ∨ ∃ x, i = .setbcu x) (r g b : Bright)
      (ht : t = (s.putBright r g b).complete .nothing)
  | plain (hi : (∃ idx val, i = .setch idx val) ∨ (∃ k r g b, i = .setled k r g b) ∨ (∃ idx, i = .getch idx) ∨
      ∃ k, i = .getled k) (r : Result) (ht : t = s.complete r)
  | write (hi : i = .write) (hr : s.ready = true) (ha : s.params.allocOk = true) (ht : t = transmit s)

/-- Which fault an operation raises, and why (R130). -/
inductive Raises (i : Instr) (s : State) : FaultRecord → Prop where
  | noBuffer (o : Opcode) (ha : s.params.allocOk = false) (hi : i.opcode = some o)
      (ho : o ∈ [Opcode.setch, .getch, .setled, .getled]) : Raises i s (.noBuffer o)
  | overrunCh (idx val : Word) (hi : i = .setch idx val) (hx : idx.toNat = channelCount s.params) :
      Raises i s (.chOverrun .setch (channelCount s.params))
  | overrunLed (k r g b : Word) (hi : i = .setled k r g b) (hx : k.toNat = 4 * s.params.chainLength) :
      Raises i s (.chOverrun .setled (channelCount s.params))
  | rangeCh (idx : Word) (hi : i = .getch idx) (hx : channelCount s.params ≤ idx.toNat) :
      Raises i s (.rdRange .getch idx)
  | rangeLed (k : Word) (hi : i = .getled k) (hx : 4 * s.params.chainLength ≤ k.toNat) :
      Raises i s (.rdRange .getled k)
  | notReady (hi : i = .write) (hx : s.ready = false) : Raises i s (.notReady .write s.initStatus)

/-- The five ways an instruction answers a next state: a halted machine stays as it is; the operation is refused; it raises
a fault; it completes; or the serializer sends a command word. -/
inductive Answers (i : Instr) (s t : State) : Prop where
  | halted (hh : s.halted = true) (ht : t = s)
  | refused (hh : s.halted = false) (r : RefReason) (ht : t = s.refuse r)
  | raised (hl : s.Live) (f : FaultRecord) (hr : Raises i s f) (ht : t = s.raise f)
  | completed (hl : s.Live) (hc : Completes i s t)
  | sent (hh : s.halted = false) (hf : s.atFrameHead = true) (r g b : Bright) (hi : i = .wrcmd r g b)
      (ht : t = sendCommand (buildCmd r g b) s)

/-- A host operation answers as `hostOp` does, and its body only runs in a live state. -/
theorem hostOp_answers {i : Instr} {s t : State} {body : State → StepOutcome} (h : hostOp s body = .next t)
    (hb : s.Live → s.fault = none → body s = .next t → Answers i s t) : Answers i s t := by
  rcases hostOp_cases s body with ⟨hh, e⟩ | ⟨hh, -, e⟩ | ⟨hh, hn, e⟩ <;> rw [e] at h
  · cases h; exact .halted hh rfl
  · cases h; exact .refused hh _ rfl
  · exact hb ⟨hh, hn⟩ (State.fault_of_not_halted hh) h

/-- A buffer operation of a live state raises NO_BUFFER or runs its body. -/
theorem withBuffer_answers {i : Instr} {s t : State} {o : Opcode} {body : State → State} (hl : s.Live)
    (hi : i.opcode = some o) (ho : o ∈ [Opcode.setch, .getch, .setled, .getled])
    (h : withBuffer o s body = .next t) (hb : s.params.allocOk = true → t = body s → Answers i s t) :
    Answers i s t := by
  cases ha : s.params.allocOk
  · rw [withBuffer_absent ha] at h; cases h; exact .raised hl _ (.noBuffer _ ha hi ho) rfl
  · rw [withBuffer_present ha] at h; cases h; exact hb ha rfl

theorem exec_answers_setch {idx val : Word} {s t : State} (h : exec (.setch idx val) s = .next t) :
    Answers (.setch idx val) s t := by
  simp only [exec, execSetch] at h
  refine hostOp_answers h fun hl hf h => withBuffer_answers hl rfl (by simp) h fun ha ht => ?_
  rcases Nat.lt_trichotomy idx.toNat (channelCount s.params) with hi | hi | hi
  · rw [setChannel_below hf hi, completeUnlessFaulted_none (by simpa using hf)] at ht
    exact .completed hl (.setch _ _ rfl ha hi ht)
  · rw [setChannel_at hf hi, completeUnlessFaulted_some rfl, hi] at ht
    exact .raised hl _ (.overrunCh _ _ rfl hi) ht
  · rw [setChannel_beyond hf hi, completeUnlessFaulted_none hf] at ht
    exact .completed hl (.plain (.inl ⟨_, _, rfl⟩) _ ht)

theorem exec_answers_getch {idx : Word} {s t : State} (h : exec (.getch idx) s = .next t) :
    Answers (.getch idx) s t := by
  simp only [exec, execGetch] at h
  refine hostOp_answers h fun hl hf h => withBuffer_answers hl rfl (by simp) h fun ha ht => ?_
  split at ht
  · exact .completed hl (.plain (.inr (.inr (.inl ⟨_, rfl⟩))) _ ht)
  · exact .raised hl _ (.rangeCh _ rfl (by omega)) ht

theorem exec_answers_setled {k r g b : Word} {s t : State} (h : exec (.setled k r g b) s = .next t) :
    Answers (.setled k r g b) s t := by
  simp only [exec, execSetled] at h
  refine hostOp_answers h fun hl hf h => withBuffer_answers hl rfl (by simp) h fun ha ht => ?_
  rcases Nat.lt_trichotomy k.toNat (4 * s.params.chainLength) with hi | hi | hi
  · rw [setLed_below hf hi, completeUnlessFaulted_none (by simpa using hf)] at ht
    exact .completed hl (.setled _ _ _ _ rfl ha hi ht)
  · rw [setLed_at hf hi, completeUnlessFaulted_some rfl] at ht
    exact .raised hl _ (.overrunLed _ _ _ _ rfl hi) ht
  · rw [setLed_beyond hf hi, completeUnlessFaulted_none hf] at ht
    exact .completed hl (.plain (.inr (.inl ⟨_, _, _, _, rfl⟩)) _ ht)

theorem exec_answers_getled {k : Word} {s t : State} (h : exec (.getled k) s = .next t) :
    Answers (.getled k) s t := by
  simp only [exec, execGetled] at h
  refine hostOp_answers h fun hl hf h => withBuffer_answers hl rfl (by simp) h fun ha ht => ?_
  split at ht
  · exact .completed hl (.plain (.inr (.inr (.inr ⟨_, rfl⟩))) _ ht)
  · rename_i hn
    simp only [ledChannel, channelCount] at hn
    exact .raised hl _ (.rangeLed _ rfl (by omega)) ht

theorem exec_answers_begin {s t : State} (h : exec .begin s = .next t) : Answers .begin s t := by
  simp only [exec, execBegin] at h
  refine hostOp_answers h fun hl hf h => ?_
  cases ha : s.params.allocOk <;> simp only [ha] at h <;> cases h
  · exact .completed hl (.beginFailed rfl ha rfl)
  · exact .completed hl (.beginDrawn rfl ha rfl)

theorem exec_answers_setbc {r g b : Byte} {s t : State} (h : exec (.setbc r g b) s = .next t) :
    Answers (.setbc r g b) s t := by
  simp only [exec, execSetbc] at h
  refine hostOp_answers h fun hl hf h => ?_
  cases h; exact .completed hl (.bright (.inl ⟨_, _, _, rfl⟩) _ _ _ rfl)

theorem exec_answers_setbcu {x : Byte} {s t : State} (h : exec (.setbcu x) s = .next t) :
    Answers (.setbcu x) s t := by
  simp only [exec, execSetbcu] at h
  refine hostOp_answers h fun hl hf h => ?_
  cases h; exact .completed hl (.bright (.inr ⟨_, rfl⟩) _ _ _ rfl)

theorem exec_answers_write {s t : State} (h : exec .write s = .next t) : Answers .write s t := by
  simp only [exec, execWrite] at h
  refine hostOp_answers h fun hl hf h => ?_
  cases hr : s.ready
  · simp only [hr] at h; cases h; exact .raised hl _ (.notReady rfl hr) rfl
  · cases ha : s.params.allocOk <;> simp only [hr, ha] at h <;> cases h
    exact .completed hl (.write rfl hr ha rfl)

/-- A WRITE that is ready, with a buffer, completes (R94, R106). -/
theorem exec_write_ready {s : State} (hs : s.Live) (hr : s.ready = true) (ha : s.params.allocOk = true) :
    exec .write s = .next (transmit s) := by
  simp [exec, execWrite, hostOp_live hs.1 hs.2, hr, ha]

theorem exec_answers_wrcmd {r g b : Bright} {s t : State} (h : exec (.wrcmd r g b) s = .next t) :
    Answers (.wrcmd r g b) s t := by
  simp only [exec, execWrcmd, Host.Outcome.next.injEq] at h
  subst h
  split
  · exact .halted ‹_› rfl
  · rename_i hh
    simp only [Bool.not_eq_true] at hh
    split
    · exact .sent hh ‹_› _ _ _ rfl rfl
    · exact .refused hh _ rfl

/-- Everything `exec` can do when it answers a next state. -/
theorem exec_answers {i : Instr} {s t : State} (h : exec i s = .next t) : Answers i s t := by
  cases i with
  | begin => exact exec_answers_begin h
  | setch => exact exec_answers_setch h
  | getch => exact exec_answers_getch h
  | setled => exact exec_answers_setled h
  | getled => exact exec_answers_getled h
  | setbc => exact exec_answers_setbc h
  | setbcu => exact exec_answers_setbcu h
  | write => exact exec_answers_write h
  | wrcmd => exact exec_answers_wrcmd h

end Sys2Proof.Machine
end

