-- ==== Sys2Proof/Laws/PerInstr.lean ====
section
/-! SUPPORT. What holds of every instruction as syntax: its encoding has the length its opcode fixes (R59, R63, R71). -/

namespace Sys2Proof.Laws.EncodedLength

/-- The encoding has the instruction's length; a host operation's is its opcode's and its first byte is the opcode byte; the
wire's command word has no opcode and four bytes. -/
def Statement (i : Instr) : Prop :=
  (encode i).length = i.length ∧
    match i.opcode with
    | some o => o.length = i.length ∧ (encode i).head? = some o.byte ∧ i.hostIssued = true
    | none => i.length = 4 ∧ i.hostIssued = false

theorem begin : Statement .begin := ⟨rfl, rfl, rfl, rfl⟩

theorem setch (idx val : Word) : Statement (.setch idx val) := ⟨rfl, rfl, rfl, rfl⟩

theorem getch (idx : Word) : Statement (.getch idx) := ⟨rfl, rfl, rfl, rfl⟩

theorem setled (k r g b : Word) : Statement (.setled k r g b) := ⟨rfl, rfl, rfl, rfl⟩

theorem getled (k : Word) : Statement (.getled k) := ⟨rfl, rfl, rfl, rfl⟩

theorem setbc (r g b : Byte) : Statement (.setbc r g b) := ⟨rfl, rfl, rfl, rfl⟩

theorem setbcu (x : Byte) : Statement (.setbcu x) := ⟨rfl, rfl, rfl, rfl⟩

theorem write : Statement .write := ⟨rfl, rfl, rfl, rfl⟩

theorem wrcmd (bcR bcG bcB : Bright) : Statement (.wrcmd bcR bcG bcB) := ⟨rfl, rfl, rfl⟩

end Sys2Proof.Laws.EncodedLength
end

