-- ==== Sys2Proof/Laws/Step.lean ====
section
/-! SUPPORT. Everything a step can do, said once, and what a serializer's turn does. -/

namespace Sys2Proof.Machine

/-- The rest of a byte leaves the serializer at the next byte of the frame (R36). -/
theorem finishByte_position (x : Byte) (k : Nat) {s : State} {p : Position} (h : s.position = some p) :
    (finishByte x k s).position = some { device := p.device, byte := p.byte + 1, bit := 7 } := by
  rw [finishByte_frame]; simp [h]

/-- What a serializer's turn requires and gives. -/
theorem serializerTurn_next {p : Position} {s t : State} (h : serializerTurn p s = .next t) :
    s.params.allocOk = true ∧ s.inCritical = true ∧ s.txnHeld = true ∧ p.legal s.params = true ∧
    t = afterByte p (finishByte (frameByte s p.device p.byte) p.bit s) := by
  unfold serializerTurn at h
  split at h
  · cases h
  · rename_i ha
    split at h
    · rename_i hc
      cases h
      simp only [Bool.and_eq_true, Bool.not_eq_eq_eq_not] at hc ha
      exact ⟨by simpa using ha, hc.1.1, hc.1.2, hc.2, rfl⟩
    · cases h

/-- In a transmission with a buffer and a legal position, a turn answers a next state. -/
theorem serializerTurn_runs {p : Position} {s : State} (ha : s.params.allocOk = true) (hc : s.inCritical = true)
    (ht : s.txnHeld = true) (hp : p.legal s.params = true) :
    serializerTurn p s = .next (afterByte p (finishByte (frameByte s p.device p.byte) p.bit s)) := by
  simp [serializerTurn, ha, hc, ht, hp]

/-- The three ways a turn ends: inside the frame, at the next frame's head, or with the transmission closed. -/
theorem afterByte_cases (p : Position) (s : State) :
    (p.byte + 1 < 28 ∧ afterByte p s = s) ∨
    (28 ≤ p.byte + 1 ∧ p.device + 1 < s.params.chainLength ∧ afterByte p s = s.atFrame (p.device + 1)) ∨
    (28 ≤ p.byte + 1 ∧ s.params.chainLength ≤ p.device + 1 ∧
      afterByte p s = (closeTransmission s).dropOpcode) := by
  unfold afterByte
  split
  · exact .inl ⟨‹_›, rfl⟩
  · split
    · exact .inr (.inl ⟨by omega, ‹_›, rfl⟩)
    · exact .inr (.inr ⟨by omega, by omega, rfl⟩)

/-- Everything `step` can do when it answers a next state. -/
inductive Steps (s t : State) : Prop where
  | halted (hh : s.halted = true) (ht : t = s)
  | idle (hh : s.halted = false) (hp : s.position = none) (hd : decode s.input = .done) (ht : t = s)
  | refused (hh : s.halted = false) (hp : s.position = none) (r : RefReason) (hd : decode s.input = .refuse r)
      (ht : t = s.refuse r)
  | host (hh : s.halted = false) (hp : s.position = none) (i : Instr) (rest : List Byte) (hd : decode s.input = .op i rest)
      (u : State) (he : exec i s = .next u) (ht : t = if u.halted then u else { u with input := rest })
  | wire (hh : s.halted = false) (hf : s.atFrameHead = true)
      (ht : t = sendCommand (buildCmd s.bcR s.bcG s.bcB) s)
  | turn (hh : s.halted = false) (p : Position) (hp : s.position = some p) (hf : s.atFrameHead = false)
      (hs : serializerTurn p s = .next t)

theorem step_steps {s t : State} (h : step s = .next t) : Steps s t := by
  unfold step nextAction at h
  cases hh : s.halted <;> simp only [hh] at h
  · cases hp : s.position with
    | some p =>
      cases hf : s.atFrameHead <;> simp only [hp, hf] at h
      · exact .turn hh p hp hf (by simpa using h)
      · refine .wire hh hf ?_
        simpa [exec, execWrcmd, hh, hf, eq_comm] using h
    | none =>
      cases hd : decode s.input with
      | done => simp only [hp, hd] at h; cases h; exact .idle hh hp hd rfl
      | refuse r => simp only [hp, hd] at h; cases h; exact .refused hh hp r hd rfl
      | op i rest =>
        simp only [hp, hd] at h
        cases he : exec i s with
        | next u => simp [he, retire] at h; exact .host hh hp i rest hd u he h.symm
        | fault f => simp [he, retire] at h
        | refused r => simp [he, retire] at h
  · cases h; exact .halted hh rfl

end Sys2Proof.Machine
end

