-- ==== Sys2Proof/Laws/Run.lean ====
section
/-! SUPPORT. Runs of whole operations (R158): an operation uses up bytes of the host's sequence, so that fuel beyond the
sequence's length changes nothing, and one that completes counts `pc` and leaves no WRITE in progress. -/

namespace Sys2Proof.Machine

/-- A decoded operation is one a host issues, and has at least one byte (R58, R71). -/
theorem decode_op {bs rest : List Byte} {i : Instr} (h : decode bs = .op i rest) :
    i.hostIssued = true ∧ rest.length < bs.length := by
  unfold decode at h
  split at h
  · cases h
  · split at h
    · cases h
    · unfold decodeOperands at h
      split at h
      all_goals (try split at h)
      all_goals cases h
      all_goals exact ⟨rfl, by simp only [List.length_cons]; omega⟩

/-- Only an empty sequence decodes to nothing (R71, R158). -/
theorem decode_done {bs : List Byte} (h : decode bs = .done) : bs = [] := by
  unfold decode at h
  split at h
  · rfl
  · split at h
    · cases h
    · unfold decodeOperands at h
      split at h
      all_goals (try split at h)
      all_goals cases h

/-- A host operation of a live state that meets no fault or refusal has completed: `pc` counts it and no WRITE is in
progress after it (R12, R31). -/
theorem exec_completes {i : Instr} {s t : State} (hi : i.hostIssued = true) (hs : s.Live) (h : exec i s = .next t)
    (ht : t.halted = false) : t.busy = false ∧ t.pc = s.pc + 1 := by
  have idle : ∀ u : State, u.inCritical = s.inCritical → u.txnHeld = s.txnHeld → u.position = s.position →
      u.busy = false := by
    intro u h1 h2 h3
    rw [← hs.2, State.busy, State.busy, h1, h2, h3]
  cases exec_answers h with
  | halted hh e => rw [hs.1] at hh; cases hh
  | refused hh r e => subst e; simp [State.halted, State.refused, State.refuse] at ht
  | raised hl f hr e => subst e; simp [State.halted, State.raise] at ht
  | sent hh hf r g b he e => subst he; cases hi
  | completed hl hc =>
    cases hc with
    | beginDrawn he ha e => subst e; rw [initialiseTransport_eq]; exact ⟨idle _ rfl rfl rfl, rfl⟩
    | beginFailed he ha e => subst e; exact ⟨idle _ rfl rfl rfl, rfl⟩
    | setch idx val he ha hx e => subst e; exact ⟨idle _ rfl rfl rfl, rfl⟩
    | setled k r g b he ha hx e => subst e; exact ⟨idle _ rfl rfl rfl, rfl⟩
    | bright he r g b e => subst e; exact ⟨idle _ rfl rfl rfl, rfl⟩
    | plain he r e => subst e; exact ⟨idle _ rfl rfl rfl, rfl⟩
    | write he hr ha e => subst e; rw [transmit_eq]; exact ⟨rfl, rfl⟩

/-- A state with nothing to run stays as it is, whatever the fuel. -/
theorem runFor_of_not_running {s : State} (h : s.running = false) (n : Nat) : runFor n s = (s, []) := by
  cases n with
  | zero => rfl
  | succ n => simp [runFor, h]

theorem running_of_halted {s : State} (h : s.halted = true) : s.running = false := by simp [State.running, h]

/-- Outside a WRITE, fuel beyond the length of the host's sequence changes nothing. -/
theorem runFor_fuel {n m : Nat} {s : State} (hb : s.busy = false) (hn : s.input.length ≤ n) (hm : s.input.length ≤ m) :
    runFor n s = runFor m s := by
  induction n generalizing m s with
  | zero =>
    have hi : s.input = [] := List.length_eq_zero_iff.1 (by omega)
    have hr : s.running = false := by simp [State.running, hb, hi]
    rw [runFor_of_not_running hr, runFor_of_not_running hr]
  | succ n ih =>
    cases hr : s.running
    · rw [runFor_of_not_running hr, runFor_of_not_running hr]
    cases m with
    | zero =>
      have hi : s.input = [] := List.length_eq_zero_iff.1 (by omega)
      simp [State.running, hb, hi] at hr
    | succ m =>
      have hh : s.halted = false := by
        cases hh : s.halted
        · rfl
        · rw [running_of_halted hh] at hr; cases hr
      simp only [runFor, hr, if_true]
      cases hs : step s with
      | fault f => rfl
      | refused r => rfl
      | next t =>
        suffices ht : runFor n t = runFor m t by simp only [ht]
        cases step_steps hs with
        | halted h e => rw [hh] at h; cases h
        | idle h hp hd e => simp [State.running, hb, decode_done hd] at hr
        | refused h hp r hd e =>
          have hr' : t.running = false := running_of_halted (by subst e; simp [State.halted, State.refused, State.refuse])
          rw [runFor_of_not_running hr', runFor_of_not_running hr']
        | host h hp i rest hd u he e =>
          obtain ⟨hi, hl⟩ := decode_op hd
          cases hu : u.halted
          · have hbu := (exec_completes hi ⟨hh, hb⟩ he hu).1
            rw [hu, if_neg (by simp)] at e
            subst e
            exact ih (s := { u with input := rest }) hbu (by simp only []; omega) (by simp only []; omega)
          · rw [hu, if_pos rfl] at e
            subst e
            rw [runFor_of_not_running (running_of_halted hu), runFor_of_not_running (running_of_halted hu)]
        | wire h hf e => simp [State.busy] at hb; simp [State.atFrameHead, hb] at hf
        | turn h p hp hf hs => rw [State.position_of_not_busy hb] at hp; cases hp

end Sys2Proof.Machine
end

