-- ==== Sys2Proof/Laws/Wire.lean ====
section
/-! SUPPORT. The laws of the wire format: the bytes of a word, the command word, the frame, the chain stream, and what an
observer reads from a transmission's events. -/

namespace Sys2Proof

/-! ## Bytes -/

@[simp] theorem beWord_hiByte_loByte (v : Word) : beWord (hiByte v) (loByte v) = v := by
  apply BitVec.eq_of_getLsbD_eq
  intro i hi
  simp only [beWord, hiByte, loByte, BitVec.getLsbD_append, BitVec.getLsbD_extractLsb']
  split
  · simp; omega
  · have : i - 8 < 8 := by omega
    simp [this]; congr 1; omega

@[simp] theorem hiByte_beWord (hi lo : Byte) : hiByte (beWord hi lo) = hi := by
  apply BitVec.eq_of_getLsbD_eq
  intro i h
  simp only [beWord, hiByte, BitVec.getLsbD_append, BitVec.getLsbD_extractLsb']
  simp [h]

@[simp] theorem loByte_beWord (hi lo : Byte) : loByte (beWord hi lo) = lo := by
  apply BitVec.eq_of_getLsbD_eq
  intro i h
  simp only [beWord, loByte, BitVec.getLsbD_append, BitVec.getLsbD_extractLsb']
  simp [h]

/-- The command word as one concatenation of its fields (R60, R61). -/
theorem buildCmd_eq_append (r g b : Bright) : buildCmd r g b = wrcmdMagic ++ modeFlags ++ r ++ g ++ b := by
  apply BitVec.eq_of_getLsbD_eq
  intro i hi
  simp only [buildCmd, BitVec.getLsbD_append, BitVec.getLsbD_or, BitVec.getLsbD_shiftLeft, BitVec.getLsbD_setWidth]
  interval_cases i <;> simp [wrcmdMagic, modeFlags]

/-- The last bit of a command word is the last bit of its blue field (R60). -/
theorem buildCmd_getLsbD_zero (r g b : Bright) : (buildCmd r g b).getLsbD 0 = b.getLsbD 0 := by
  simp only [buildCmd_eq_append, BitVec.getLsbD_append]; simp

/-- A u32 is its four bytes (R44). -/
theorem beCmd_bytes (w : Cmd) :
    beCmd (w.extractLsb' 24 8) (w.extractLsb' 16 8) (w.extractLsb' 8 8) (w.extractLsb' 0 8) = w := by
  apply BitVec.eq_of_getLsbD_eq
  intro i hi
  simp only [beCmd, BitVec.getLsbD_append, BitVec.getLsbD_extractLsb']
  interval_cases i <;> simp

/-- An observer reads back the brightness fields of a command word (R74). -/
theorem cmdFields_buildCmd (r g b : Bright) : cmdFields (buildCmd r g b) = some (r, g, b) := by
  rw [buildCmd_eq_append, cmdFields, if_pos]
  · simp only [Option.some.injEq, Prod.mk.injEq]
    refine ⟨?_, ?_, ?_⟩ <;>
    · apply BitVec.eq_of_getLsbD_eq
      intro i hi
      simp only [BitVec.getLsbD_append, BitVec.getLsbD_extractLsb']
      interval_cases i <;> simp
  · apply BitVec.eq_of_getLsbD_eq
    intro i hi
    simp only [BitVec.getLsbD_append, BitVec.getLsbD_extractLsb']
    interval_cases i <;> simp

end Sys2Proof

namespace Sys2Proof.Machine

/-! ## Frames and the chain stream -/

theorem deviceFrame_length (s : State) (n : Nat) : (deviceFrame s n).length = 28 := by
  simp [deviceFrame, cmdBytes, channelOrder, encodeWord]

theorem chainStream_length (s : State) : (chainStream s).length = 28 * s.params.chainLength := by
  simp [chainStream, List.length_flatMap, deviceFrame_length, Nat.mul_comm]

/-- Element `k * n + b` of lists of `k` elements put end to end is element `b` of list `n`. -/
theorem flatMap_range_getElem? {α : Type} (f : Nat → List α) (k : Nat) (hk : ∀ n, (f n).length = k) (m n b : Nat)
    (hn : n < m) (hb : b < k) : ((List.range m).flatMap f)[k * n + b]? = (f n)[b]? := by
  have hl : ∀ m, ((List.range m).flatMap f).length = k * m := by
    intro m; simp [List.length_flatMap, hk, Nat.mul_comm]
  induction m with
  | zero => omega
  | succ m ih =>
    rw [List.range_succ, List.flatMap_append]
    by_cases h : n < m
    · rw [List.getElem?_append_left, ih h]
      rw [hl]
      calc k * n + b < k * n + k := by omega
        _ = k * (n + 1) := by ring
        _ ≤ k * m := Nat.mul_le_mul_left _ h
    · have : n = m := by omega
      subst this
      rw [List.getElem?_append_right (by rw [hl]; omega), hl]
      simp

/-- Stream byte `28n + b` is byte `b` of device `n`'s frame (R64). -/
theorem chainStream_getElem? (s : State) {n b : Nat} (hn : n < s.params.chainLength) (hb : b < 28) :
    (chainStream s)[28 * n + b]? = (deviceFrame s n)[b]? :=
  flatMap_range_getElem? _ 28 (deviceFrame_length s) _ _ _ hn hb

/-- The byte the serializer sends at a position is the frame's byte there (R36, R63), whatever else has changed. -/
theorem deviceFrame_getElem? (s u : State) (n b : Nat) (hb : b < 28) (hr : u.bcR = s.bcR) (hg : u.bcG = s.bcG)
    (hbl : u.bcB = s.bcB) (hp : u.pwm = s.pwm) : (deviceFrame s n)[b]? = some (frameByte u n b) := by
  have hc : ∀ i, u.channel i = s.channel i := fun i => by simp [State.channel, hp]
  simp only [frameByte, hr, hg, hbl, hc]
  interval_cases b <;> simp [deviceFrame, cmdBytes, channelOrder, encodeWord]

/-! ## What an observer reads -/

theorem byteEvents_append (a b : List Event) : byteEvents (a ++ b) = byteEvents a ++ byteEvents b := by
  simp [byteEvents]

theorem byteEvents_transferEvents (t : Transport) (x : Byte) : byteEvents (transferEvents t x) = [x] := by
  cases t <;> simp [byteEvents, transferEvents, msbFirst, bitEvents, Event.asByte]

/-- The byte events of a list of transfers are the bytes (R101). -/
theorem byteEvents_transfers (t : Transport) (bs : List Byte) : byteEvents (bs.flatMap (transferEvents t)) = bs := by
  induction bs with
  | nil => rfl
  | cons x bs ih => rw [List.flatMap_cons, byteEvents_append, byteEvents_transferEvents, ih]; rfl

/-- 24 pin events for each byte under the software transport, none under the hardware transport (R104, R112). -/
theorem transfers_counts (t : Transport) (bs : List Byte) :
    ((bs.flatMap (transferEvents t)).filter Event.isPin).length =
      (if t = .softwareBitBang then 24 * bs.length else 0) ∧
    (bs.flatMap (transferEvents t)).length = bs.length + (if t = .softwareBitBang then 24 * bs.length else 0) := by
  induction bs with
  | nil => simp
  | cons x bs ih =>
    obtain ⟨h1, h2⟩ := ih
    simp only [List.flatMap_cons, List.filter_append, List.length_append, h1, h2]
    cases t <;> simp [transferEvents, msbFirst, bitEvents, Event.isPin, List.filter_cons] <;> omega

/-- A receiver samples the bits of the bytes, most significant first (R113). -/
theorem sampledLevels_transfers (l : PinLevel) (bs : List Byte) (es : List Event) :
    ∃ l', sampledLevels l (bs.flatMap (transferEvents .softwareBitBang) ++ es) =
      (bs.flatMap msbFirst).map pinOfBit ++ sampledLevels l' es := by
  induction bs generalizing l with
  | nil => exact ⟨l, rfl⟩
  | cons x bs ih =>
    obtain ⟨l', h⟩ := ih (pinOfBit (x.getLsbD 0))
    refine ⟨l', ?_⟩
    simp only [List.flatMap_cons, List.append_assoc, List.map_append, ← h]
    simp [transferEvents, msbFirst, bitEvents, sampledLevels]

end Sys2Proof.Machine
end

