-- ==== Sys2Proof/Laws/Serializer.lean ====
section
/-! SUPPORT. The serializer's own steps through one frame of a WRITE (R36): one step for the command word and one for each
channel byte, 25 in all. -/

namespace Sys2Proof.Machine

/-- Steps in two parts. -/
theorem run_add (m n : Nat) (s t : State) (h : Host.Core.run core m s = .next t) :
    Host.Core.run core (m + n) s = Host.Core.run core n t := by
  induction m generalizing s with
  | zero => simp only [Host.Core.run] at h; cases h; simp
  | succ m ih =>
    rw [Nat.succ_add]
    simp only [Host.Core.run] at h ⊢
    cases hs : core.step s with
    | next u => rw [hs] at h; exact ih u h
    | fault f => rw [hs] at h; cases h
    | refused r => rw [hs] at h; cases h

theorem run_one (s t : State) (h : step s = .next t) : Host.Core.run core 1 s = .next t := by
  simp only [Host.Core.run]
  have : core.step s = .next t := h
  rw [this]

/-- State `u` stands in the WRITE of state `s`, at byte `b` of device `n`'s frame: what a serializer's turn reads is as it
was in `s`. -/
structure MidFrame (s u : State) (n b : Nat) : Prop where
  live : u.halted = false
  position : u.position = some { device := n, byte := b, bit := 7 }
  inCritical : u.inCritical = true
  txnHeld : u.txnHeld = true
  allocOk : u.params.allocOk = true
  params : u.params = s.params
  bcR : u.bcR = s.bcR
  bcG : u.bcG = s.bcG
  bcB : u.bcB = s.bcB
  pwm : u.pwm = s.pwm

/-- What follows a frame's last byte: the next frame's head, or the end of the transmission (R93, R100). -/
def afterFrame (n : Nat) (t : State) : State :=
  if n + 1 < t.params.chainLength then t.atFrame (n + 1) else (closeTransmission t).dropOpcode

/-- Inside a frame a step sends one byte. -/
theorem MidFrame.step_eq {s u : State} {n b : Nat} (m : MidFrame s u n b) (hn : n < s.params.chainLength) (hb : b < 28)
    (h0 : b ≠ 0) :
    step u = .next (afterByte { device := n, byte := b, bit := 7 } (transfer (frameByte u n b) u)) := by
  have hleg : Position.legal { device := n, byte := b, bit := 7 } u.params = true := by
    simp only [Position.legal, m.params]; cases s.params.transport <;> simp [hn, hb]
  have hf : u.atFrameHead = false := by simp [State.atFrameHead, m.position, h0]
  have := serializerTurn_runs m.allocOk m.inCritical m.txnHeld hleg
  simp only [step, nextAction, m.live, m.position, hf]
  exact this

theorem MidFrame.transfer {s u : State} {n b : Nat} (m : MidFrame s u n b) (x : Byte) :
    MidFrame s (Machine.transfer x u) n (b + 1) := by
  rw [transfer_eq]
  exact ⟨by rw [← m.live]; exact State.halted_congr rfl rfl, by simp [m.position], m.inCritical, m.txnHeld, m.allocOk,
    m.params, m.bcR, m.bcG, m.bcB, m.pwm⟩

/-- The rest of a frame from byte `b`, one step a byte. -/
theorem run_bytes (s : State) (n : Nat) (hn : n < s.params.chainLength) : ∀ k b u, MidFrame s u n b → b + k = 27 →
    b ≠ 0 →
    Host.Core.run core (k + 1) u = .next (afterFrame n (transferAll ((deviceFrame s n).drop b) u)) := by
  intro k
  induction k with
  | zero =>
    intro b u m hb h0
    have e : b = 27 := by omega
    subst e
    rw [run_one _ _ (m.step_eq hn (by omega) h0)]
    have hd : (deviceFrame s n).drop 27 = [frameByte u n 27] := by
      have h1 := deviceFrame_getElem? s u n 27 (by omega) m.bcR m.bcG m.bcB m.pwm
      have hl := deviceFrame_length s n
      rw [List.drop_eq_getElem_cons (by omega), List.drop_of_length_le (by omega)]
      rw [List.getElem?_eq_getElem (by omega)] at h1
      simpa using h1
    rw [hd]
    rfl
  | succ k ih =>
    intro b u m hb h0
    have h1 := deviceFrame_getElem? s u n b (by omega) m.bcR m.bcG m.bcB m.pwm
    have hl := deviceFrame_length s n
    rw [List.getElem?_eq_getElem (by omega)] at h1
    have hs := m.step_eq hn (by omega) h0
    have ha : afterByte { device := n, byte := b, bit := 7 } (Machine.transfer (frameByte u n b) u) =
        Machine.transfer (frameByte u n b) u := by simp [afterByte]; omega
    rw [ha] at hs
    rw [show k + 1 + 1 = 1 + (k + 1) by omega, run_add _ _ _ _ (run_one _ _ hs),
      ih (b + 1) _ (m.transfer _) (by omega) (by omega)]
    rw [List.drop_eq_getElem_cons (i := b) (by omega)]
    simp only [Option.some.injEq] at h1
    rw [h1, transferAll_cons]

/-- One frame from its head: 25 steps transfer its 28 bytes (R63, R93). -/
theorem run_frame (s v : State) (n : Nat) (hn : n < s.params.chainLength) (m : MidFrame s (v.atFrame n) n 0) :
    Host.Core.run core 25 (v.atFrame n) =
      .next (afterFrame n (transferAll (deviceFrame s n) (v.atFrame n))) := by
  set u := v.atFrame n with hu
  have hf : u.atFrameHead = true := by
    simp only [State.atFrameHead, m.inCritical, m.txnHeld, m.position, Position.legal, m.params]
    cases s.params.transport <;> simp [hn]
  have hs : step u = .next (sendCommand (buildCmd u.bcR u.bcG u.bcB) u) := by
    simp only [step, nextAction, m.live, m.position, hf]
    simp [exec, execWrcmd, m.live, hf]
  have m4 : MidFrame s (sendCommand (buildCmd u.bcR u.bcG u.bcB) u) n 4 := by
    have hp : (sendCommand (buildCmd u.bcR u.bcG u.bcB) u).position =
        some { device := n, byte := 4, bit := 7 } := by
      rw [sendCommand_eq, transferAll_position _ _ n 0 m.position]; rfl
    rw [sendCommand_frame] at hp ⊢
    exact ⟨by rw [← m.live]; exact State.halted_congr rfl rfl, hp, m.inCritical, m.txnHeld, m.allocOk, m.params, m.bcR,
      m.bcG, m.bcB, m.pwm⟩
  rw [show 25 = 1 + (23 + 1) by rfl, run_add _ _ _ _ (run_one _ _ hs), run_bytes s n hn 23 4 _ m4 (by omega) (by omega),
    sendCommand_eq, ← transferAll_append, m.bcR, m.bcG, m.bcB]
  congr 2

end Sys2Proof.Machine
end

