-- ==== Sys2Proof/Laws/Text.lean ====
section
/-! SUPPORT. The laws of the assembler's text operations (R72). -/

namespace Sys2Proof.Machine

/-! ## Characters and pieces -/

/-- A character that is part of a token: no blank, comma or semicolon. -/
def isToken (c : Char) : Bool := !isBlank c && !(c == ',') && !(c == ';')

theorem isToken_notBlank {c : Char} (h : isToken c = true) : isBlank c = false := by
  simp only [isToken, Bool.and_eq_true, Bool.not_eq_eq_eq_not, Bool.not_true] at h
  exact h.1.1

theorem isToken_notComma {c : Char} (h : isToken c = true) : (c == ',') = false := by
  simp only [isToken, Bool.and_eq_true, Bool.not_eq_eq_eq_not, Bool.not_true] at h
  exact h.1.2

theorem isToken_notComment {c : Char} (h : isToken c = true) : (c == ';') = false := by
  simp only [isToken, Bool.and_eq_true, Bool.not_eq_eq_eq_not, Bool.not_true] at h
  exact h.2

/-- A line without a semicolon has no comment. -/
theorem stripComment_none {cs : List Char} (h : ∀ c ∈ cs, (c == ';') = false) : stripComment cs = cs := by
  induction cs with
  | nil => rfl
  | cons c cs ih => simp [stripComment, h c (by simp), ih fun d hd => h d (by simp [hd])]

theorem trimLeft_token {c : Char} (h : isBlank c = false) (cs : List Char) : trimLeft (c :: cs) = c :: cs := by
  simp [trimLeft, h]

/-- Text that begins and ends outside a blank is trimmed already. -/
theorem trim_tokens {c d : Char} {cs ds : List Char} (hc : isBlank c = false) (hd : isBlank d = false)
    (he : c :: cs = ds ++ [d]) : trim (c :: cs) = c :: cs := by
  rw [trim, trimLeft_token hc, he, List.reverse_append]
  simp [trimLeft, hd]

/-- One token is trimmed already. -/
theorem trim_token {p : List Char} (hp : ∀ c ∈ p, isToken c = true) : trim p = p := by
  cases p with
  | nil => rfl
  | cons c cs =>
    obtain ⟨ds, d, he⟩ : ∃ ds d, c :: cs = ds ++ [d] := ⟨_, _, (List.dropLast_append_getLast (by simp)).symm⟩
    exact trim_tokens (isToken_notBlank (hp c (by simp)))
      (isToken_notBlank (hp d (by rw [he]; simp))) he

/-- A blank in front of a token is trimmed off. -/
theorem trim_blank_token {p : List Char} (hp : ∀ c ∈ p, isToken c = true) : trim (' ' :: p) = p := by
  rw [show trim (' ' :: p) = trim p from rfl, trim_token hp]

/-- The mnemonic ends at the first blank. -/
theorem splitAtBlank_token {p rest : List Char} (hp : ∀ c ∈ p, isToken c = true) :
    splitAtBlank (p ++ ' ' :: rest) = (p, ' ' :: rest) := by
  induction p with
  | nil => rfl
  | cons c p ih =>
    simp [splitAtBlank, isToken_notBlank (hp c (by simp)), ih fun d hd => hp d (by simp [hd])]

/-- A piece without a comma is one piece. -/
theorem splitOnChar_none {p : List Char} (hp : ∀ c ∈ p, (c == ',') = false) : splitOnChar ',' p = [p] := by
  induction p with
  | nil => rfl
  | cons c p ih => simp [splitOnChar, hp c (by simp), ih fun d hd => hp d (by simp [hd])]

/-- A piece up to a comma, and the pieces after it. -/
theorem splitOnChar_comma {p rest : List Char} (hp : ∀ c ∈ p, (c == ',') = false) :
    splitOnChar ',' (p ++ ',' :: rest) = p :: splitOnChar ',' rest := by
  induction p with
  | nil => simp [splitOnChar]
  | cons c p ih => simp [splitOnChar, hp c (by simp), ih fun d hd => hp d (by simp [hd])]

/-! ## Literals -/

/-- A hexadecimal digit is a token character and reads back as its value. -/
theorem hexDigit_reads : ∀ d < 16, isToken (hexDigit d) = true ∧ digitValue (hexDigit d) = some d := by decide

/-- `n` hexadecimal digits read as the number they write, if it fits. -/
theorem digitsValue_hexDigits (n v acc : Nat) (rest : List Char) :
    digitsValue 16 acc (hexDigits n v ++ rest) = digitsValue 16 (acc * 16 ^ n + v % 16 ^ n) rest := by
  induction n generalizing v acc rest with
  | zero => simp [hexDigits, Nat.mod_one]
  | succ n ih =>
    have hd := (hexDigit_reads (v % 16) (by omega)).2
    have hlt : v % 16 < 16 := Nat.mod_lt _ (by omega)
    rw [hexDigits, List.append_assoc, ih]
    simp only [List.cons_append, List.nil_append, digitsValue, hd, hlt, if_true]
    congr 1
    have h1 : v / 16 % 16 ^ n * 16 + v % 16 = v % 16 ^ (n + 1) := by
      rw [pow_succ', Nat.mod_mul]; ring
    rw [← h1, pow_succ]; ring

theorem hexDigits_tokens (n v : Nat) : ∀ c ∈ hexDigits n v, isToken c = true := by
  induction n generalizing v with
  | zero => simp [hexDigits]
  | succ n ih =>
    intro c hc
    rw [hexDigits, List.mem_append, List.mem_singleton] at hc
    rcases hc with hc | rfl
    · exact ih _ c hc
    · exact (hexDigit_reads _ (by omega)).1

theorem hexDigits_ne_nil (n v : Nat) : hexDigits (n + 1) v ≠ [] := by simp [hexDigits]

theorem parseLiteral_hex (n v : Nat) (hv : v < 16 ^ (n + 1)) :
    parseLiteral ('0' :: 'x' :: hexDigits (n + 1) v) = some v := by
  have h := digitsValue_hexDigits (n + 1) v 0 []
  have hne : (hexDigits (n + 1) v).isEmpty = false := by
    cases he : hexDigits (n + 1) v with
    | nil => exact absurd he (hexDigits_ne_nil n v)
    | cons => rfl
  rw [List.append_nil, Nat.mod_eq_of_lt hv] at h
  simp [parseLiteral, hne, h, digitsValue]

/-- A u16 literal reads back. -/
theorem parseLiteral_word (v : Word) : parseLiteral (wordLiteral v) = some v.toNat := by
  have h : v.toNat < 16 ^ (3 + 1) := lt_of_lt_of_le v.isLt (by norm_num)
  simpa [wordLiteral] using parseLiteral_hex 3 v.toNat h

/-- A u8 literal reads back. -/
theorem parseLiteral_byte (v : Byte) : parseLiteral (byteLiteral v) = some v.toNat := by
  have h : v.toNat < 16 ^ (1 + 1) := lt_of_lt_of_le v.isLt (by norm_num)
  simpa [byteLiteral] using parseLiteral_hex 1 v.toNat h

theorem wordLiteral_tokens (v : Word) : ∀ c ∈ wordLiteral v, isToken c = true := by
  intro c hc
  simp only [wordLiteral, List.cons_append, List.nil_append, List.mem_cons] at hc
  rcases hc with rfl | rfl | hc
  · decide
  · decide
  · exact hexDigits_tokens _ _ c hc

theorem byteLiteral_tokens (v : Byte) : ∀ c ∈ byteLiteral v, isToken c = true := by
  intro c hc
  simp only [byteLiteral, List.cons_append, List.nil_append, List.mem_cons] at hc
  rcases hc with rfl | rfl | hc
  · decide
  · decide
  · exact hexDigits_tokens _ _ c hc

theorem name_tokens (o : Opcode) : ∀ c ∈ Opcode.name o, isToken c = true := by
  cases o <;> simp [Opcode.name, isToken, isBlank]

theorem parseMnemonic_name (o : Opcode) : parseMnemonic (Opcode.name o) = some o := by cases o <;> rfl

/-! ## Lines -/

/-- A written line has no comment. -/
theorem stripComment_lineOf (o : Opcode) (ps : List (List Char)) (h : ∀ p ∈ ps, ∀ c ∈ p, isToken c = true) :
    stripComment (lineOf o ps) = lineOf o ps := by
  apply stripComment_none
  intro c hc
  cases ps with
  | nil => exact isToken_notComment (name_tokens o c hc)
  | cons p ps =>
    simp only [lineOf, List.mem_append, List.mem_flatMap, List.mem_cons, List.not_mem_nil, or_false] at hc
    rcases hc with ((hc | rfl) | hc) | ⟨q, hq, (rfl | rfl) | hc⟩
    · exact isToken_notComment (name_tokens o c hc)
    · decide
    · exact isToken_notComment (h p (by simp) c hc)
    · decide
    · decide
    · exact isToken_notComment (h q (by simp [hq]) c hc)

/-- A mnemonic begins with a character that is no blank. -/
theorem name_nonempty (o : Opcode) : ∃ c cs, Opcode.name o = c :: cs ∧ isBlank c = false := by
  cases o <;> exact ⟨_, _, rfl, by decide⟩

/-- The operands of a written line are its pieces, each after the first behind a blank. -/
theorem splitOnChar_operands (ps : List (List Char)) (p : List Char) (h : ∀ q ∈ p :: ps, ∀ c ∈ q, isToken c = true) :
    splitOnChar ',' (p ++ ps.flatMap fun q => [',', ' '] ++ q) = p :: ps.map (' ' :: ·) := by
  suffices ∀ (ps : List (List Char)) (p : List Char), (∀ c ∈ p, (c == ',') = false) →
      (∀ q ∈ ps, ∀ c ∈ q, isToken c = true) →
      splitOnChar ',' (p ++ ps.flatMap fun q => [',', ' '] ++ q) = p :: ps.map (' ' :: ·) from
    this ps p (fun c hc => isToken_notComma (h p (by simp) c hc)) (fun q hq => h q (by simp [hq]))
  intro ps
  induction ps with
  | nil => intro p hp _; simpa using splitOnChar_none hp
  | cons q ps ih =>
    intro p hp hq
    rw [List.flatMap_cons, List.map_cons, ← ih (' ' :: q) _ (fun r hr => hq r (by simp [hr]))]
    · simpa using splitOnChar_comma (rest := ' ' :: q ++ ps.flatMap fun q => [',', ' '] ++ q) hp
    · intro c hc; simp only [List.mem_cons] at hc
      rcases hc with rfl | hc
      · decide
      · exact isToken_notComma (hq q (by simp) c hc)

/-- A written line of operands ends in a character that is no blank. -/
theorem line_ends_in_token (ps : List (List Char)) (p pre : List Char)
    (h : ∀ q ∈ p :: ps, q ≠ [] ∧ ∀ c ∈ q, isToken c = true) :
    ∃ ds d, pre ++ p ++ (ps.flatMap fun q => [',', ' '] ++ q) = ds ++ [d] ∧ isBlank d = false := by
  induction ps generalizing p pre with
  | nil =>
    have hp := h p (by simp)
    refine ⟨pre ++ p.dropLast, p.getLast hp.1, ?_, isToken_notBlank (hp.2 _ (List.getLast_mem _))⟩
    simp [List.dropLast_append_getLast hp.1]
  | cons q ps ih =>
    obtain ⟨ds, d, e, hd⟩ := ih q (pre ++ p ++ [',', ' ']) (fun r hr => h r (by simp at hr ⊢; tauto))
    exact ⟨ds, d, by rw [← e]; simp, hd⟩

/-- The operands of a written line read back as their values. -/
theorem parseLiterals_operands (ls : List (List Char × Nat))
    (h : ∀ l ∈ ls, parseLiteral l.1 = some l.2 ∧ ∀ c ∈ l.1, isToken c = true) :
    parseLiterals (ls.map fun l => ' ' :: l.1) = some (ls.map Prod.snd) := by
  induction ls with
  | nil => rfl
  | cons l ls ih =>
    have := h l (by simp)
    simp only [List.map_cons, parseLiterals, trim_blank_token this.2, this.1, ih fun m hm => h m (by simp [hm])]

/-- A literal is not empty. -/
theorem parseLiteral_ne_nil {p : List Char} {v} (h : parseLiteral p = some v) : p ≠ [] := by
  rintro rfl; simp [parseLiteral] at h

/-- A line written from a mnemonic and operand literals assembles as its read form does. -/
theorem assembleLine_lineOf (o : Opcode) (l : List Char × Nat) (ls : List (List Char × Nat))
    (h : ∀ m ∈ l :: ls, parseLiteral m.1 = some m.2 ∧ ∀ c ∈ m.1, isToken c = true) :
    assembleLine (lineOf o ((l :: ls).map Prod.fst)) =
      match assembleParsed { mnemonic := o, operands := (l :: ls).map Prod.snd } with
        | .ok i => .ok (some i)
        | .error e => .error e := by
  have hs := stripComment_lineOf o ((l :: ls).map Prod.fst) (by
    intro p hp; obtain ⟨m, hm, rfl⟩ := List.mem_map.1 hp; exact (h m hm).2)
  obtain ⟨c, cs, hc, hcb⟩ := name_nonempty o
  obtain ⟨ds, d, hd, hdb⟩ := line_ends_in_token (ls.map Prod.fst) l.1 (Opcode.name o ++ [' ']) (by
    intro p hp
    have : p ∈ (l :: ls).map Prod.fst := by simpa using hp
    obtain ⟨m, hm, rfl⟩ := List.mem_map.1 this
    exact ⟨parseLiteral_ne_nil (h m hm).1, (h m hm).2⟩)
  have ht : trim (lineOf o ((l :: ls).map Prod.fst)) = lineOf o ((l :: ls).map Prod.fst) := by
    simp only [List.map_cons, lineOf] at hd ⊢
    rw [hc] at hd ⊢
    exact trim_tokens (cs := cs ++ [' '] ++ l.1 ++ _) hcb hdb (by simpa using hd)
  have hsp : splitAtBlank (lineOf o ((l :: ls).map Prod.fst)) =
      (Opcode.name o, ' ' :: (l.1 ++ (ls.map Prod.fst).flatMap fun q => [',', ' '] ++ q)) := by
    simp only [List.map_cons, lineOf]
    simpa using splitAtBlank_token (rest := l.1 ++ (ls.map Prod.fst).flatMap fun q => [',', ' '] ++ q) (name_tokens o)
  have hsplit : splitOnChar ',' (' ' :: (l.1 ++ (ls.map Prod.fst).flatMap fun q => [',', ' '] ++ q)) =
      (l :: ls).map fun l => ' ' :: l.1 := by
    have := splitOnChar_operands (ls.map Prod.fst) l.1 (by
      intro p hp
      have : p ∈ (l :: ls).map Prod.fst := by simpa using hp
      obtain ⟨m, hm, rfl⟩ := List.mem_map.1 this
      exact (h m hm).2)
    rw [splitOnChar]
    simp only [show (' ' == ',') = false by decide, this]
    simp [Function.comp_def]
  have hpne : (trim (' ' :: (l.1 ++ (ls.map Prod.fst).flatMap fun q => [',', ' '] ++ q))).isEmpty = false := by
    have hl := h l (by simp)
    obtain ⟨a, as, ha⟩ := List.exists_cons_of_ne_nil (parseLiteral_ne_nil hl.1)
    obtain ⟨ds, d, hd, hdb⟩ := line_ends_in_token (ls.map Prod.fst) l.1 [] (by
      intro p hp
      have : p ∈ (l :: ls).map Prod.fst := by simpa using hp
      obtain ⟨m, hm, rfl⟩ := List.mem_map.1 this
      exact ⟨parseLiteral_ne_nil (h m hm).1, (h m hm).2⟩)
    rw [show trim (' ' :: (l.1 ++ (ls.map Prod.fst).flatMap fun q => [',', ' '] ++ q)) =
      trim (l.1 ++ (ls.map Prod.fst).flatMap fun q => [',', ' '] ++ q) from rfl]
    rw [List.nil_append] at hd
    rw [ha] at hd hl ⊢
    rw [List.cons_append, trim_tokens (isToken_notBlank (hl.2 a (by simp))) hdb (by simpa using hd)]
    rfl
  have he : (lineOf o ((l :: ls).map Prod.fst)).isEmpty = false := by
    simp only [List.map_cons, lineOf, hc]; rfl
  simp only [assembleLine, hs, ht, he, hsp, parseMnemonic_name, operandPieces, hpne, hsplit,
    parseLiterals_operands _ h, Bool.false_eq_true, if_false]
  all_goals (split <;> simp_all)

end Sys2Proof.Machine
end

