-- ==== Sys2Proof/Tests/Slice0.lean ====
section
/-! SUPPORT. Tests: well-formedness, decoding, one step of every instruction, and for every obligation with hypotheses a
state and operands that meet them. Expected values are those of spec/95_test_vectors.md (the vector is named) or of the
rule named. -/

open Sys2Proof Sys2Proof.Machine

namespace Sys2Proof.Tests

/-- A constructed block of `n` devices. -/
def made (n : Nat) (t : Transport) (a : Bool) : State :=
  State.initial { chainLength := n, transport := t, allocOk := a }

/-- A software block. -/
def soft (n : Nat) : State := made n .softwareBitBang true

/-- A hardware block. -/
def hard (n : Nat) : State := made n .hardwarePeripheral true

/-- A block without a channel buffer. -/
def noBuf : State := made 1 .softwareBitBang false

/-- The state after a successful BEGIN, but for `pc`, the result and the trace. -/
def begun (s : State) : State := { s with ready := true, initStatus := .ok, pinsConfigured := true }

/-- A ready hardware block. -/
def begunHard (n : Nat) : State := { hard n with ready := true, initStatus := .ok }

/-- A block with host bytes to run. -/
def feed (s : State) (bs : List Byte) : State := { s with input := bs }

/-- In the middle of a WRITE: byte `b`, bit `k` of device `n`'s frame. -/
def sending (s : State) (n b k : Nat) : State :=
  { s with inCritical := true, txnHeld := true, interruptsEnabled := false
           position := some { device := n, byte := b, bit := k } }

/-- What a test asks of the next state. -/
def after {α : Type} (o : StepOutcome) (f : State → α) : Option α :=
  match o with
  | .next t => some (f t)
  | .fault _ => none
  | .refused _ => none

/-- The hypotheses of the statement about the rest of a byte, together. -/
abbrev InsideFrame (s : State) (n b k : Nat) : Prop :=
  s.halted = false ∧ s.position = some { device := n, byte := b, bit := k } ∧ s.inCritical = true ∧ s.txnHeld = true ∧
  s.params.allocOk = true ∧ n < s.params.chainLength ∧ b < 28 ∧ k ≤ 7 ∧
  (s.params.transport = .hardwarePeripheral → k = 7) ∧ (b ≠ 0 ∨ k ≠ 7)

/-- The three brightness registers. -/
def bright (s : State) : Nat × Nat × Nat := (s.bcR.toNat, s.bcG.toNat, s.bcB.toNat)

/-! ## Well-formedness: a term each check refuses, and the boundary it accepts -/

/-- R6, `92` D2: chain lengths 0 and 5462 are illegal, 1 and 5461 legal. -/
theorem test_wf_chain_length :
    Params.wf { chainLength := 0, transport := .softwareBitBang, allocOk := true } = false ∧
    Params.wf { chainLength := 5462, transport := .softwareBitBang, allocOk := true } = false ∧
    Params.wf { chainLength := 1, transport := .hardwarePeripheral, allocOk := false } = true ∧
    Params.wf { chainLength := 5461, transport := .softwareBitBang, allocOk := true } = true := by decide

/-- The command word is no host operation (opcode table, row WRCMD). -/
theorem test_wf_host_issued :
    Instr.hostIssued (.wrcmd 1#7 2#7 3#7) = false ∧ Instr.hostIssued (.setch 0#16 0#16) = true := by decide

/-- R59, R72: the operand count. -/
theorem test_wf_operand_count :
    AsmLine.wf { mnemonic := .setch, operands := [5] } = false ∧
    AsmLine.wf { mnemonic := .begin, operands := [0] } = false ∧
    AsmLine.wf { mnemonic := .setch, operands := [5, 32768] } = true := by decide

/-- R72: a literal above 65535 for a u16 or above 255 for a u8 does not fit. -/
theorem test_wf_operand_fits :
    AsmLine.wf { mnemonic := .getch, operands := [65536] } = false ∧
    AsmLine.wf { mnemonic := .setbc, operands := [0, 256, 0] } = false ∧
    AsmLine.wf { mnemonic := .getch, operands := [65535] } = true ∧
    AsmLine.wf { mnemonic := .setbcu, operands := [255] } = true := by decide

/-! ## Decoding: a word of each row, written out from R59 and R60, and its encoding -/

/-- P1, pc 0. -/
theorem test_decode_begin :
    decode [0x01#8] = .op (.begin) [] ∧
    encode (.begin) = [0x01#8] := by decide

/-- P1, pc 2: `SETCH 11, 0xABCD`. -/
theorem test_decode_setch :
    decode [0x10#8, 0x00#8, 0x0B#8, 0xAB#8, 0xCD#8] = .op (.setch 0x000B#16 0xABCD#16) [] ∧
    encode (.setch 0x000B#16 0xABCD#16) = [0x10#8, 0x00#8, 0x0B#8, 0xAB#8, 0xCD#8] := by decide

/-- P6, pc 2: `GETCH 0`, with another index: 0x0105. -/
theorem test_decode_getch :
    decode [0x11#8, 0x01#8, 0x05#8] = .op (.getch 0x0105#16) [] ∧
    encode (.getch 0x0105#16) = [0x11#8, 0x01#8, 0x05#8] := by decide

/-- P2, pc 4: `SETLED 4, 0x0102, 0x0304, 0x0506`. -/
theorem test_decode_setled :
    decode [0x20#8, 0x00#8, 0x04#8, 0x01#8, 0x02#8, 0x03#8, 0x04#8, 0x05#8, 0x06#8] = .op (.setled 0x0004#16 0x0102#16 0x0304#16 0x0506#16) [] ∧
    encode (.setled 0x0004#16 0x0102#16 0x0304#16 0x0506#16) = [0x20#8, 0x00#8, 0x04#8, 0x01#8, 0x02#8, 0x03#8, 0x04#8, 0x05#8, 0x06#8] :=
  by decide

/-- P2, pc 6: `GETLED 4`. -/
theorem test_decode_getled :
    decode [0x21#8, 0x00#8, 0x04#8] = .op (.getled 0x0004#16) [] ∧
    encode (.getled 0x0004#16) = [0x21#8, 0x00#8, 0x04#8] := by decide

/-- P1, pc 3: `SETBC 10, 200, 30`. -/
theorem test_decode_setbc :
    decode [0x30#8, 0x0A#8, 0xC8#8, 0x1E#8] = .op (.setbc 10#8 200#8 30#8) [] ∧
    encode (.setbc 10#8 200#8 30#8) = [0x30#8, 0x0A#8, 0xC8#8, 0x1E#8] := by decide

/-- P2, pc 5: `SETBCU 64`. -/
theorem test_decode_setbcu :
    decode [0x31#8, 0x40#8] = .op (.setbcu 64#8) [] ∧
    encode (.setbcu 64#8) = [0x31#8, 0x40#8] := by decide

/-- P1, pc 4. -/
theorem test_decode_write :
    decode [0x40#8] = .op (.write) [] ∧
    encode (.write) = [0x40#8] := by decide

/-- The table's command word rows (`95` part 2): brightness (10, 127, 30) is 96 C2 BF 9E, (64, 64, 64) is 96 D0 20 40.
-/
theorem test_decode_wrcmd :
    decodeWire [0x96#8, 0xC2#8, 0xBF#8, 0x9E#8] = some (.wrcmd 10#7 127#7 30#7, []) ∧
    encode (.wrcmd 10#7 127#7 30#7) = [0x96#8, 0xC2#8, 0xBF#8, 0x9E#8] ∧
    decodeWire [0x96#8, 0xD0#8, 0x20#8, 0x40#8] = some (.wrcmd 64#7 64#7 64#7, []) := by decide

/-- `95` part 2: the command words of nine brightness triples. -/
theorem test_command_words :
    buildCmd 127#7 127#7 127#7 = 0x96DFFFFF#32 ∧ buildCmd 0#7 0#7 0#7 = 0x96C00000#32 ∧
    buildCmd 1#7 2#7 3#7 = 0x96C04103#32 ∧ buildCmd 10#7 20#7 30#7 = 0x96C28A1E#32 ∧
    buildCmd 127#7 0#7 0#7 = 0x96DFC000#32 ∧ buildCmd 0#7 127#7 0#7 = 0x96C03F80#32 ∧
    buildCmd 0#7 0#7 127#7 = 0x96C0007F#32 ∧ buildCmd 64#7 64#7 64#7 = 0x96D02040#32 ∧
    buildCmd 10#7 127#7 30#7 = 0x96C2BF9E#32 := by decide

/-- R69: a word whose mode flags or magic differ is not this block's. -/
theorem test_decode_wire_foreign :
    decodeWire [0x96#8, 0xE0#8, 0x00#8, 0x00#8] = none ∧ decodeWire [0x94#8, 0xC0#8, 0x00#8, 0x00#8] = none := by decide

/-- `95` decoder vectors: `01 55` is BEGIN, then REF_OPCODE; `10 00` is REF_TRUNCATED. -/
theorem test_decode_refusals :
    decodeProgram [0x01#8, 0x55#8] = ([.begin], some .opcode) ∧
    decodeProgram [0x10#8, 0x00#8] = ([], some .truncated) := by decide

/-- The program of P3, decoded whole. -/
theorem test_decode_program :
    decodeProgram [0x10#8, 0x00#8, 0x05#8, 0x00#8, 0x07#8, 0x40#8, 0x01#8] = ([.setch 5#16 7#16, .write, .begin], none) :=
  by decide

/-- The table numbers the first byte as bits 7..0: `10 00 0B AB CD`, an opcode byte alone with operands of zeros, and
the wire row as one 32-bit word. -/
theorem test_table_words :
    decodeTableWord 40 0xCDAB0B0010 = some (.setch 0x000B#16 0xABCD#16) ∧
    decodeTableWord 8 0x20 = some (.setled 0#16 0#16 0#16 0#16) ∧
    decodeTableWord 32 0x1EC80A30 = some (.setbc 10#8 200#8 30#8) ∧
    decodeTableWord 32 0x96C2BF9E = some (.wrcmd 10#7 127#7 30#7) ∧
    decodeTableWord 8 0x55 = none := by decide

/-- A placed word is what the next step runs. -/
theorem test_placed_host_word :
    after (step (State.reset.withFetchWord 40 0xCDAB0B0010)) (fun t => (t.channel 11, t.pc)) = some (0xABCD#16, 1) :=
  by decide

/-- A placed command word is sent by the next step. -/
theorem test_placed_wire_word :
    after (step (State.reset.withFetchWord 32 0x96C2BF9E)) (fun t => byteEvents t.trace) =
      some [0x96#8, 0xC2#8, 0xBF#8, 0x9E#8] := by decide +kernel

/-! ## Steps -/

/-- `95` SETCH, N = 2: index 23 is the last element, and 24 is CH_OVERRUN with info 24. -/
theorem test_setch_bounds :
    after (exec (.setch 23#16 1#16) (soft 2)) (fun t => (t.channel 23, t.fault)) = some (1#16, none) ∧
    after (exec (.setch 24#16 5#16) (soft 2)) (fun t => (t.pwm, t.fault, t.pc)) =
      some ([], some (.chOverrun .setch 24), 0) := by decide

/-- `95` SETCH, N = 2: indices 25 and 65535 have no effect; without a buffer NO_BUFFER. -/
theorem test_setch_ignored :
    after (exec (.setch 25#16 5#16) (soft 2)) (fun t => (t.pwm, t.fault, t.pc)) = some ([], none, 1) ∧
    after (exec (.setch 65535#16 5#16) (soft 2)) (fun t => (t.pwm, t.fault, t.pc)) = some ([], none, 1) ∧
    after (exec (.setch 12#16 5#16) noBuf) (fun t => t.fault) = some (some (.noBuffer .setch)) := by decide

/-- `95` GETCH, N = 1: element 11, and RD_RANGE with info 12. -/
theorem test_getch_bounds :
    after (exec (.getch 11#16) ((soft 1).putChannel 11 0xBEEF#16)) (fun t => t.result) = some (.word 0xBEEF#16) ∧
    after (exec (.getch 12#16) (soft 1)) (fun t => (t.fault, t.result)) =
      some (some (.rdRange .getch 12#16), .nothing) := by decide

/-- `95` GETCH 0 after reset reads 0. -/
theorem test_getch_reset :
    after (exec (.getch 0#16) (soft 1)) (fun t => (t.result, t.pc)) = some (.word 0#16, 1) := by decide

/-- `95` SETLED, N = 1: LED 3 writes elements 9 to 11, and LED 4 is CH_OVERRUN. -/
theorem test_setled_bounds :
    after (exec (.setled 3#16 7#16 8#16 9#16) (soft 1)) (fun t => t.pwm) = some [(9, 7#16), (10, 8#16), (11, 9#16)] ∧
    after (exec (.setled 4#16 1#16 1#16 1#16) (soft 1)) (fun t => (t.pwm, t.fault)) =
      some ([], some (.chOverrun .setled 12)) := by decide

/-- `95` SETLED, N = 1: LED 65535 has no effect, since its indices do not wrap. -/
theorem test_setled_no_wrap :
    after (exec (.setled 65535#16 1#16 1#16 1#16) (soft 1)) (fun t => (t.pwm, t.fault, t.pc)) = some ([], none, 1) :=
  by decide

/-- `95` GETLED, N = 1: LED 3 of elements 7, 8, 9, and RD_RANGE at LED 4. -/
theorem test_getled_bounds :
    after (exec (.getled 3#16) { soft 1 with pwm := [(9, 7#16), (10, 8#16), (11, 9#16)] }) (fun t => t.result) =
      some (.triple 7#16 8#16 9#16) ∧
    after (exec (.getled 4#16) (soft 1)) (fun t => t.fault) = some (some (.rdRange .getled 4#16)) := by decide

/-- `95` SETBC 0, 127, 128 and R86's SETBC 200, 5, 127. -/
theorem test_setbc_clamps :
    after (exec (.setbc 0#8 127#8 128#8) (soft 1)) bright = some (0, 127, 127) ∧
    after (exec (.setbc 200#8 5#8 127#8) noBuf) bright = some (127, 5, 127) := by decide

/-- `95` SETBCU 128 and 5. -/
theorem test_setbcu_clamps :
    after (exec (.setbcu 128#8) (soft 1)) bright = some (127, 127, 127) ∧
    after (exec (.setbcu 5#8) (soft 1)) bright = some (5, 5, 5) := by decide

/-- `95` BEGIN, and P5: the transport's configuration event, whatever the draw. -/
theorem test_begin_configures :
    after (exec .begin (soft 1)) (fun t => (t.trace, t.pinsConfigured, t.pc)) = some ([.configPins], true, 1) ∧
    after (exec .begin (hard 1)) (fun t => (t.trace, t.pinsConfigured, t.pc)) = some ([.initPeripheral], false, 1) :=
  by decide

/-- P6: without a buffer BEGIN returns false and emits nothing. -/
theorem test_begin_alloc_fail :
    after (exec .begin noBuf) (fun t => (t.trace, t.initStatus, t.ready, t.result)) =
      some ([], .allocFail, false, .bool false) := by decide

/-- V-W3: the 28 bytes of brightness (1, 2, 3) and elements `(c << 8) | (0x10 + c)`. -/
theorem test_write_bytes :
    after (exec .write { begunHard 1 with
        bcR := 1#7, bcG := 2#7, bcB := 3#7
        pwm := (List.range 12).map fun c => (c, BitVec.ofNat 16 (256 * c + 16 + c)) })
      (fun t => byteEvents t.trace) =
      some ([0x96#8, 0xC0#8, 0x41#8, 0x03#8, 0x0B#8, 0x1B#8, 0x0A#8, 0x1A#8, 0x09#8, 0x19#8, 0x08#8, 0x18#8, 0x07#8, 0x17#8] ++
        [0x06#8, 0x16#8, 0x05#8, 0x15#8, 0x04#8, 0x14#8, 0x03#8, 0x13#8, 0x02#8, 0x12#8, 0x01#8, 0x11#8, 0x00#8, 0x10#8]) :=
      by decide +kernel

/-- V-W4, V-W5, V-W6: NOT_READY before BEGIN; 705 events for one software device; 61 for two hardware devices. -/
theorem test_write_counts :
    after (exec .write (soft 1)) (fun t => (t.trace, t.fault)) = some ([], some (.notReady .write .none)) ∧
    after (exec .write (begun (soft 1))) (fun t => (t.trace.length, t.sck, t.sdo)) = some (705, .high, .low) ∧
    after (exec .write (begunHard 2)) (fun t => (t.trace.length, t.sck, t.sdo)) = some (61, .unknown, .unknown) :=
  by decide +kernel

/-- V-B1: the 24 pin events of byte 96 sample 1, 0, 0, 1, 0, 1, 1, 0. -/
theorem test_bitbang_byte :
    (transferEvents .softwareBitBang 0x96#8).length = 25 ∧
    sampledLevels .unknown (transferEvents .softwareBitBang 0x96#8) =
      [.high, .low, .low, .high, .low, .high, .high, .low] := by decide

/-- R63: the command word of full brightness at the head of a frame, `96 DF FF FF` (V-L1). -/
theorem test_wrcmd_sends :
    after (exec (.wrcmd 127#7 127#7 127#7) (sending (begunHard 1) 0 0 7)) (fun t => (t.trace, t.position)) =
      some ([.byte 0x96#8, .byte 0xDF#8, .byte 0xFF#8, .byte 0xFF#8],
        some { device := 0, byte := 4, bit := 7 }) := by decide

/-- R68: as a host operation the word's first byte, 96, is unassigned. -/
theorem test_wrcmd_not_host :
    after (step (feed (soft 1) [0x96#8, 0xDF#8, 0xFF#8, 0xFF#8])) (fun t => (t.refusal, t.trace, t.pc)) = some (some .opcode, [], 0) :=
  by decide

/-- R36: the serializer's turn at bit 0 of byte 27 of the last device ends the WRITE. -/
theorem test_serializer_last_bit :
    after (step (sending (begun (soft 1)) 0 27 0)) (fun t => (t.trace, t.pc, t.inCritical, t.position)) =
      some ([.sck false, .sdo false, .sck true, .delay 200, .endTxn, .exitCritical], 1, false, none) := by decide

/-- P3: the fault leaves `pc` at the WRITE and the operation in the host's sequence. -/
theorem test_step_fault_stays :
    after (step (feed (soft 1) [0x40#8, 0x01#8])) (fun t => (t.pc, t.fault, t.input)) =
      some (0, some (.notReady .write .none), [0x40#8, 0x01#8]) := by decide

/-- `95` decoder vectors: `40` with N = 0 is refused at construction. -/
theorem test_construct_refused :
    (construct { chainLength := 0, transport := .softwareBitBang, allocOk := true } [0x40#8]).refusal = some .config :=
  by decide

/-- R158: the observation of P6's first two operations, which end well. -/
theorem test_observation :
    observe (feed noBuf [0x01#8, 0x30#8, 0x01#8, 0x02#8, 0x03#8]) =
      some { trace := [], results := [.bool false, .nothing], pwm := [], bcR := 1#7, bcG := 2#7, bcB := 3#7, ready := false } :=
    by decide

/-! ## The assembler: R72's examples -/

/-- R72: `SETCH 5, 0x8000`, with a comment. -/
theorem test_assemble_setch :
    assembleLine ['S', 'E', 'T', 'C', 'H', ' ', '5', ',', ' ', '0', 'x', '8', '0', '0', '0', ' ', ';', ' ', 'x'] =
      .ok (some (.setch 5#16 0x8000#16)) := by decide

/-- R72: `SETBC 127, 64, 0`. -/
theorem test_assemble_setbc :
    assembleLine ['S', 'E', 'T', 'B', 'C', ' ', '1', '2', '7', ',', ' ', '6', '4', ',', ' ', '0'] = .ok (some (.setbc 127#8 64#8 0#8)) :=
  by decide

/-- R72: `SETBCU 256` does not fit; `BEGIN` takes no operand; a mnemonic must be known. -/
theorem test_assemble_errors :
    assembleLine ['S', 'E', 'T', 'B', 'C', 'U', ' ', '2', '5', '6'] = .error .operandTooLarge ∧
    assembleLine ['B', 'E', 'G', 'I', 'N', ' ', '1'] = .error .operandCount ∧
    assembleLine ['G', 'E', 'T', 'B', 'C'] = .error .unknownMnemonic := by decide

/-- R72: one operation per line. -/
theorem test_assemble_text :
    assemble ['B', 'E', 'G', 'I', 'N', '\n', 'G', 'E', 'T', 'L', 'E', 'D', ' ', '0', '\n', 'W', 'R', 'I', 'T', 'E'] = .ok [.begin, .getled 0#16, .write] :=
  by decide

/-! ## Reset -/

/-- R39 at reset, and the canonical form of the buffer. -/
theorem test_reset :
    State.reset.pwm.wf = true ∧ State.reset.pc = 0 ∧ bright State.reset = (127, 127, 127) ∧
    State.reset.sck = .unknown := by decide

/-! ## Witnesses: for each obligation with hypotheses, concrete values that meet them all, one for each clause -/

/-- The longest host operation, at its operands' extremes. -/
theorem witness_EncodedInstructionDecodes :
    Instr.hostIssued (.setled 0#16 0xFFFF#16 0x8000#16 1#16) = true := by decide

/-- `GETLED 4` with a byte after it. -/
theorem witness_DecodedBytesAreTheEncoding :
    decode [0x21#8, 0x00#8, 0x04#8, 0x40#8] = .op (.getled 4#16) [0x40#8] := by decide

/-- One of each host operation. -/
theorem witness_EncodedProgramDecodes :
    ∀ i ∈ [Instr.begin, .setch 0#16 0#16, .getch 0#16, .setled 0#16 0#16 0#16 0#16, .getled 0#16, .setbc 0#8 0#8 0#8,
      .setbcu 0#8, .write], i.hostIssued = true := by decide

/-- The lowest and highest unassigned byte and one between two rows, in a state that has one to run. -/
theorem witness_UnassignedOpcodeIsRefused :
    0x00#8 ∉ [0x01#8, 0x10#8, 0x11#8, 0x20#8, 0x21#8, 0x30#8, 0x31#8, 0x40#8] ∧
    0x12#8 ∉ [0x01#8, 0x10#8, 0x11#8, 0x20#8, 0x21#8, 0x30#8, 0x31#8, 0x40#8] ∧
    0xFF#8 ∉ [0x01#8, 0x10#8, 0x11#8, 0x20#8, 0x21#8, 0x30#8, 0x31#8, 0x40#8] ∧
    (feed (soft 1) [0xFF#8]).Live ∧ (feed (soft 1) [0xFF#8]).input = 0xFF#8 :: [] := by decide

/-- SETLED cut to 8 bytes and to 1, SETBCU cut to 1. -/
theorem witness_TruncatedOperationIsRefused :
    (∀ n ∈ [1, 8], 0 < n ∧ n < (Instr.setled 1#16 2#16 3#16 4#16).length ∧
        (feed (soft 1) ((encode (.setled 1#16 2#16 3#16 4#16)).take n)).Live) ∧
      Instr.hostIssued (.setled 1#16 2#16 3#16 4#16) = true ∧
      Instr.hostIssued (.setbcu 7#8) = true ∧ 1 < (Instr.setbcu 7#8).length := by decide

/-- A line of each operand count. -/
theorem witness_AssembledLineIsTheOperation :
    disassemble (.setbcu 200#8) = some ['S', 'E', 'T', 'B', 'C', 'U', ' ', '0', 'x', 'C', '8'] ∧
    (disassemble (.setled 0#16 65535#16 0#16 0#16)).isSome = true ∧
    disassemble .write = some ['W', 'R', 'I', 'T', 'E'] := by decide

/-- One literal one above its field. -/
theorem witness_OperandLiteralMustFit_tooLarge :
    [65535, 65536].length = Opcode.setch.operandMax.length ∧
    ∃ ov ∈ [65535, 65536].zip Opcode.setch.operandMax, ov.2 < ov.1 := by decide

/-- Every literal at its field's maximum. -/
theorem witness_OperandLiteralMustFit_fits :
    [255, 255, 255].length = Opcode.setbc.operandMax.length ∧
    ∀ ov ∈ [255, 255, 255].zip Opcode.setbc.operandMax, ov.1 ≤ ov.2 := by decide

/-- An operation that completes, and one that faults. -/
theorem witness_StepRunsDecodedOperation :
    (feed (soft 1) [0x31#8, 0x40#8]).halted = false ∧ (feed (soft 1) [0x31#8, 0x40#8]).position = none ∧
    decode (feed (soft 1) [0x31#8, 0x40#8]).input = .op (.setbcu 0x40#8) [] ∧
    decode (feed (soft 1) [0x40#8, 0x01#8]).input = .op .write [0x01#8] ∧
    after (exec .write (feed (soft 1) [0x40#8, 0x01#8])) State.halted = some true := by decide

/-- At device 1's frame. -/
theorem witness_StepAtFrameHeadRunsWrcmd :
    (sending (begunHard 2) 1 0 7).halted = false ∧ (sending (begunHard 2) 1 0 7).atFrameHead = true := by decide

/-- A fault, and a refusal. -/
theorem witness_HaltedMachineIsQuiescent :
    ((soft 1).raise (.noBuffer .getch)).halted = true ∧ ((soft 1).refuse .opcode).halted = true := by decide

/-- A constructed block with nothing to run. -/
theorem witness_IdleMachineWaits :
    (soft 1).position = none ∧ (soft 1).input = [] := by decide

/-- A WRITE in progress, and a host operation. -/
theorem witness_OverlappingOperationIsRefused :
    (sending (begun (soft 1)) 0 5 3).halted = false ∧ (sending (begun (soft 1)) 0 5 3).busy = true ∧
    Instr.hostIssued .write = true := by decide

/-- The shortest and the longest chain. -/
theorem witness_ConstructionLeavesResetValues :
    ∀ n ∈ [1, 5461], 1 ≤ (soft n).params.chainLength ∧ (soft n).params.chainLength ≤ 5461 := by decide

/-- No device, and one too many. -/
theorem witness_IllegalParametersAreRefused :
    ∀ n ∈ [0, 5462], (soft n).params.chainLength = 0 ∨ 5461 < (soft n).params.chainLength := by decide

/-- The first and the last channel of two devices. -/
theorem witness_SetchWritesOneChannel_below :
    (soft 2).Live ∧ (soft 2).pwm.wf = true ∧ (soft 2).params.allocOk = true ∧
    (0#16).toNat < 12 * (soft 2).params.chainLength ∧
    (23#16).toNat < 12 * (soft 2).params.chainLength := by decide

/-- One past the last channel; of the longest chain too. -/
theorem witness_SetchWritesOneChannel_at :
    (soft 2).Live ∧ (soft 2).pwm.wf = true ∧ (soft 2).params.allocOk = true ∧
    (24#16).toNat = 12 * (soft 2).params.chainLength ∧
    (soft 5461).Live ∧ (soft 5461).pwm.wf = true ∧ (soft 5461).params.allocOk = true ∧
    (65532#16).toNat = 12 * (soft 5461).params.chainLength := by decide

/-- Two past the last channel, and the largest index. -/
theorem witness_SetchWritesOneChannel_beyond :
    (soft 2).Live ∧ (soft 2).pwm.wf = true ∧ (soft 2).params.allocOk = true ∧
    12 * (soft 2).params.chainLength < (25#16).toNat ∧
    12 * (soft 2).params.chainLength < (65535#16).toNat := by decide

/-- No allocation. -/
theorem witness_SetchWritesOneChannel_noBuffer :
    noBuf.Live ∧ noBuf.pwm.wf = true ∧ noBuf.params.allocOk = false := by decide

/-- The last channel. -/
theorem witness_GetchReadsOneChannel_below :
    (soft 2).Live ∧ (soft 2).params.allocOk = true ∧ (23#16).toNat < 12 * (soft 2).params.chainLength := by decide

/-- One past the last channel, and the largest index. -/
theorem witness_GetchReadsOneChannel_outside :
    (soft 2).Live ∧ (soft 2).params.allocOk = true ∧ 12 * (soft 2).params.chainLength ≤ (24#16).toNat ∧
    12 * (soft 2).params.chainLength ≤ (65535#16).toNat := by decide

/-- No allocation. -/
theorem witness_GetchReadsOneChannel_noBuffer :
    noBuf.Live ∧ noBuf.params.allocOk = false := by decide

/-- The last channel. -/
theorem witness_SetchThenGetchReturnsValue :
    (soft 2).Live ∧ (soft 2).pwm.wf = true ∧ (soft 2).params.allocOk = true ∧
    (23#16).toNat < 12 * (soft 2).params.chainLength := by decide

/-- The first and the last LED of two devices. -/
theorem witness_SetledWritesThreeChannels_below :
    (soft 2).Live ∧ (soft 2).pwm.wf = true ∧ (soft 2).params.allocOk = true ∧
    (0#16).toNat < 4 * (soft 2).params.chainLength ∧
    (7#16).toNat < 4 * (soft 2).params.chainLength := by decide

/-- LED 4N. -/
theorem witness_SetledWritesThreeChannels_at :
    (soft 2).Live ∧ (soft 2).pwm.wf = true ∧ (soft 2).params.allocOk = true ∧
    (8#16).toNat = 4 * (soft 2).params.chainLength := by decide

/-- The next LED, and the largest. -/
theorem witness_SetledWritesThreeChannels_beyond :
    (soft 2).Live ∧ (soft 2).pwm.wf = true ∧ (soft 2).params.allocOk = true ∧
    4 * (soft 2).params.chainLength < (9#16).toNat ∧ 4 * (soft 2).params.chainLength < (65535#16).toNat := by decide

/-- No allocation. -/
theorem witness_SetledWritesThreeChannels_noBuffer :
    noBuf.Live ∧ noBuf.pwm.wf = true ∧ noBuf.params.allocOk = false := by decide

/-- The last LED. -/
theorem witness_GetledReadsThreeChannels_below :
    (soft 2).Live ∧ (soft 2).params.allocOk = true ∧ (7#16).toNat < 4 * (soft 2).params.chainLength := by decide

/-- LED 4N, and the largest. -/
theorem witness_GetledReadsThreeChannels_outside :
    (soft 2).Live ∧ (soft 2).params.allocOk = true ∧ 4 * (soft 2).params.chainLength ≤ (8#16).toNat ∧
    4 * (soft 2).params.chainLength ≤ (65535#16).toNat := by decide

/-- No allocation. -/
theorem witness_GetledReadsThreeChannels_noBuffer :
    noBuf.Live ∧ noBuf.params.allocOk = false := by decide

/-- The last LED. -/
theorem witness_SetledThenGetledReturnsValues :
    (soft 2).Live ∧ (soft 2).pwm.wf = true ∧ (soft 2).params.allocOk = true ∧
    (7#16).toNat < 4 * (soft 2).params.chainLength := by decide

/-- The last LED, one beyond 4N, and the last LED SETCH can spell. -/
theorem witness_SetledIsThreeSetch_written :
    (soft 2).Live ∧ (soft 2).params.allocOk = true ∧
    3 * (7#16).toNat + 2 ≤ 65535 ∧
    (7#16).toNat ≠ 4 * (soft 2).params.chainLength ∧
    3 * (9#16).toNat + 2 ≤ 65535 ∧
    (9#16).toNat ≠ 4 * (soft 2).params.chainLength ∧
    3 * (21844#16).toNat + 2 ≤ 65535 ∧
    (21844#16).toNat ≠ 4 * (soft 2).params.chainLength := by decide

/-- LED 4N. -/
theorem witness_SetledIsThreeSetch_overrun :
    (soft 2).Live ∧ (soft 2).params.allocOk = true ∧ 3 * (8#16).toNat + 2 ≤ 65535 ∧
    (8#16).toNat = 4 * (soft 2).params.chainLength := by decide

/-- A live state; without a buffer too. -/
theorem witness_SetbcClampsEachOperand :
    (soft 1).Live ∧ noBuf.Live := by decide

/-- A live state. -/
theorem witness_SetbcuClampsOnceForAll :
    (hard 3).Live := by decide

/-- A SETLED that completes twice. -/
theorem witness_StoreOperationsAreIdempotent :
    (soft 1).pwm.wf = true ∧ ∃ t u, exec (.setled 3#16 7#16 8#16 9#16) (soft 1) = .next t ∧
      exec (.setled 3#16 7#16 8#16 9#16) t = .next u := ⟨by decide, _, _, rfl, rfl⟩

/-- With a buffer under both transports, and without. -/
theorem witness_BeginReportsInitialisation :
    (soft 1).Live ∧ (hard 1).Live ∧ noBuf.Live ∧ (soft 1).params.allocOk = true ∧
    noBuf.params.allocOk = false := by decide

/-- Before any BEGIN, and after a failed one. -/
theorem witness_WriteBeforeBeginFaults :
    (soft 1).Live ∧ (soft 1).ready = false ∧
    State.Live { soft 1 with initStatus := .transportFail } ∧
    State.ready { soft 1 with initStatus := .transportFail } = false := by decide

/-- Ready under both transports. -/
theorem witness_WriteAppendsTransmission :
    (begun (soft 1)).Live ∧ (begun (soft 1)).ready = true ∧ (begun (soft 1)).params.allocOk = true ∧
    (begunHard 2).Live ∧ (begunHard 2).ready = true ∧ (begunHard 2).params.allocOk = true := by decide

/-- A WRITE that completes. -/
theorem witness_WriteByteEventsAreChainStream :
    (begun (soft 1)).Live ∧ (begun (soft 1)).ready = true ∧
    ∃ t, exec .write (begun (soft 1)) = .next t := ⟨by decide, by decide, _, exec_write_ready (by decide) rfl rfl⟩

/-- A WRITE that completes. -/
theorem witness_InterruptsEnabledAfterWrite :
    (begun (soft 1)).Live ∧ (begun (soft 1)).ready = true ∧
    ∃ t, exec .write (begun (soft 1)) = .next t := ⟨by decide, by decide, _, exec_write_ready (by decide) rfl rfl⟩

/-- The last device of two, its command word's last byte and its channels' last pair. -/
theorem witness_ChainStreamByteTable :
    1 < (soft 2).params.chainLength ∧ 3 < 4 ∧ 11 < 12 := by decide

/-- A software WRITE. -/
theorem witness_PinLevelsAfterWrite_software :
    (begun (soft 1)).Live ∧ (begun (soft 1)).ready = true ∧ 1 ≤ (begun (soft 1)).params.chainLength ∧
    (begun (soft 1)).params.transport = .softwareBitBang ∧
    ∃ t, exec .write (begun (soft 1)) = .next t := ⟨by decide, by decide, by decide, rfl, _, exec_write_ready (by decide) rfl rfl⟩

/-- A hardware WRITE. -/
theorem witness_PinLevelsAfterWrite_hardware :
    (begunHard 2).Live ∧ (begunHard 2).ready = true ∧ 1 ≤ (begunHard 2).params.chainLength ∧
    (begunHard 2).params.transport = .hardwarePeripheral ∧
    ∃ t, exec .write (begunHard 2) = .next t := ⟨by decide, by decide, by decide, rfl, _, exec_write_ready (by decide) rfl rfl⟩

/-- Two states of one store that differ in transport and history. -/
theorem witness_WriteDependsOnStoreAlone :
    (begun (soft 1)).Live ∧ (begunHard 1).Live ∧ (begun (soft 1)).ready = true ∧ (begunHard 1).ready = true ∧
    (begun (soft 1)).params.chainLength = (begunHard 1).params.chainLength ∧
    (begun (soft 1)).bcR = (begunHard 1).bcR ∧ (begun (soft 1)).bcG = (begunHard 1).bcG ∧
    (begun (soft 1)).bcB = (begunHard 1).bcB ∧
    (∀ i, i < 12 * (begun (soft 1)).params.chainLength → (begun (soft 1)).channel i = (begunHard 1).channel i) ∧
    ∃ t u, exec .write (begun (soft 1)) = .next t ∧
    exec .write (begunHard 1) = .next u := ⟨by decide, by decide, rfl, rfl, rfl, rfl, rfl, rfl, fun _ _ => rfl, _, _,
    exec_write_ready (by decide) rfl rfl, exec_write_ready (by decide) rfl rfl⟩

/-- Two states of one transport that differ in `pc`. -/
theorem witness_WriteDependsOnStoreAlone_sameTransport :
    (begun (soft 1)).params.transport = (State.params { begun (soft 1) with pc := 9 }).transport ∧
    State.Live { begun (soft 1) with pc := 9 } := by decide

/-- A software WRITE. -/
theorem witness_ReceiverSamplesTheBytes :
    (begun (soft 1)).Live ∧ (begun (soft 1)).ready = true ∧ (begun (soft 1)).params.transport = .softwareBitBang ∧
    ∃ t, exec .write (begun (soft 1)) = .next t := ⟨by decide, by decide, rfl, _, exec_write_ready (by decide) rfl rfl⟩

/-- At device 0's frame in software, and at the last device's in hardware. -/
theorem witness_WrcmdSendsCommandWord :
    (sending (begun (soft 1)) 0 0 7).halted = false ∧ (sending (begun (soft 1)) 0 0 7).atFrameHead = true ∧
    (sending (begunHard 2) 1 0 7).halted = false ∧ (sending (begunHard 2) 1 0 7).atFrameHead = true := by decide

/-- Outside a WRITE, and inside a frame. -/
theorem witness_WrcmdOutsideFrameIsRefused :
    (soft 1).halted = false ∧ (soft 1).atFrameHead = false ∧
    (sending (begun (soft 1)) 0 4 7).halted = false ∧ (sending (begun (soft 1)) 0 4 7).atFrameHead = false := by decide

/-- Bit 7 of byte 26, and bit 0 of byte 0, of a software frame. -/
theorem witness_SerializerSendsRestOfByte_software :
    InsideFrame (sending (begun (soft 1)) 0 26 7) 0 26 7 ∧
    InsideFrame (sending (begun (soft 1)) 0 0 0) 0 0 0 := by decide

/-- Byte 4 of the last hardware frame. -/
theorem witness_SerializerSendsRestOfByte_hardware :
    InsideFrame (sending (begunHard 2) 1 4 7) 1 4 7 := by decide

/-- Byte 27 of device 0 of two: bit 3 in software, and the whole byte in hardware. -/
theorem witness_SerializerSendsRestOfByte_nextDevice :
    InsideFrame (sending (begun (soft 2)) 0 27 3) 0 27 3 ∧
    0 + 1 < (sending (begun (soft 2)) 0 27 3).params.chainLength ∧
    InsideFrame (sending (begunHard 2) 0 27 7) 0 27 7 ∧
    0 + 1 < (sending (begunHard 2) 0 27 7).params.chainLength := by decide

/-- Byte 27 of the last device: bit 0 in software, and the whole byte in hardware. -/
theorem witness_SerializerSendsRestOfByte_closing :
    InsideFrame (sending (begun (soft 2)) 1 27 0) 1 27 0 ∧
    1 + 1 = (sending (begun (soft 2)) 1 27 0).params.chainLength ∧
    InsideFrame (sending (begunHard 2) 1 27 7) 1 27 7 ∧
    1 + 1 = (sending (begunHard 2) 1 27 7).params.chainLength := by decide

/-- A ready block with WRITE as its next operation. -/
theorem witness_AtomicWriteIsSerializerRun :
    (feed (begun (soft 1)) [0x40#8, 0x01#8]).Live ∧ (feed (begun (soft 1)) [0x40#8, 0x01#8]).ready = true ∧
    (feed (begun (soft 1)) [0x40#8, 0x01#8]).params.allocOk = true ∧
    1 ≤ (feed (begun (soft 1)) [0x40#8, 0x01#8]).params.chainLength ∧
    (feed (begun (soft 1)) [0x40#8, 0x01#8]).input = encode .write ++ [0x01#8] := by decide

/-- A transaction under each transport. -/
theorem witness_TransactionSettings :
    (sending (begunHard 1) 0 0 7).txnHeld = true ∧
    (sending (begunHard 1) 0 0 7).params.transport = .hardwarePeripheral ∧
    (sending (begun (soft 1)) 0 0 7).txnHeld = true ∧
    (sending (begun (soft 1)) 0 0 7).params.transport = .softwareBitBang := by decide

/-- The invariant holds of a ready block, and a step answers a next state. -/
theorem witness_StepKeepsInvariant_host :
    (feed (begun (soft 1)) [0x31#8, 0x40#8]).Inv ∧
    ∃ t, step (feed (begun (soft 1)) [0x31#8, 0x40#8]) = .next t := ⟨by decide, _, rfl⟩

/-- The invariant holds in the middle of a WRITE, and the serializer's turn answers a next state. -/
theorem witness_StepKeepsInvariant_serializer :
    (sending (begun (soft 2)) 1 27 3).Inv ∧ ∃ t, step (sending (begun (soft 2)) 1 27 3) = .next t := ⟨by decide, _, rfl⟩

/-- The invariant holds without a buffer and in the middle of a WRITE. -/
theorem witness_MachineNeverStops :
    noBuf.Inv ∧ (sending (begunHard 2) 1 5 7).Inv := ⟨by decide, by decide⟩

/-- A step that answers a next state. -/
theorem witness_ParametersNeverChange :
    ∃ t, step (feed (begun (soft 1)) [0x31#8, 0x40#8]) = .next t := ⟨_, rfl⟩

/-- A step that answers a next state. -/
theorem witness_TraceIsAppendOnly :
    ∃ t, step (feed (begun (soft 1)) [0x31#8, 0x40#8]) = .next t := ⟨_, rfl⟩

/-- A step that counts, and one that faults. -/
theorem witness_PcCountsByOne :
    after (step (feed (soft 1) [0x31#8, 0x40#8])) State.halted = some false ∧
    after (step (feed (soft 1) [0x40#8])) State.halted = some true := by decide

/-- An operation that faults, and one that is refused. -/
theorem witness_FaultsAreExact :
    (soft 1).halted = false ∧ after (exec .write (soft 1)) State.halted = some true ∧
    after (exec (.wrcmd 1#7 2#7 3#7) (soft 1)) State.refusal = some (some .opcode) := by decide

/-- Each of the four faults. -/
theorem witness_FaultTable :
    (soft 1).fault = none ∧ noBuf.fault = none ∧
    after (exec (.getled 0#16) noBuf) State.fault = some (some (.noBuffer .getled)) ∧
    after (exec (.setch 12#16 0#16) (soft 1)) State.fault = some (some (.chOverrun .setch 12)) ∧
    after (exec (.getch 12#16) (soft 1)) State.fault = some (some (.rdRange .getch 12#16)) ∧
    after (exec .write (soft 1)) State.fault = some (some (.notReady .write .none)) := by decide

/-- A changed buffer, and changed brightness registers. -/
theorem witness_EachRegisterHasItsWriters_store :
    after (exec (.setch 0#16 1#16) (soft 1)) (fun t => decide (t.pwm ≠ (soft 1).pwm)) = some true ∧
    after (exec (.setbcu 5#8) (soft 1)) (fun t => decide ((t.bcR, t.bcG, t.bcB) ≠ ((soft 1).bcR, (soft 1).bcG, (soft 1).bcB))) =
      some true := by decide

/-- Changed initialisation state and trace by BEGIN, changed pins by the command word. -/
theorem witness_EachRegisterHasItsWriters_wire :
    after (exec .begin (soft 1)) (fun t => decide (t.pinsConfigured ≠ (soft 1).pinsConfigured ∧ t.trace ≠ (soft 1).trace)) =
      some true ∧
    after (exec (.wrcmd 1#7 2#7 3#7) (sending (begun (soft 1)) 0 0 7)) (fun t => decide (t.sck ≠ .unknown)) = some true :=
  by decide

/-- A store operation that completes. -/
theorem witness_StoreIgnoresReadiness :
    Instr.hostIssued (.getled 0#16) = true ∧ ∃ t, exec (.getled 0#16) (soft 1) = .next t := ⟨rfl, _, rfl⟩

/-- A run that meets a fault at its second operation. -/
theorem witness_HaltedRunHasNoObservation_halted :
    (runFor 3 (feed (soft 1) [0x31#8, 0x40#8, 0x40#8])).1.halted = true ∧
    (feed (soft 1) [0x31#8, 0x40#8, 0x40#8]).input.length = 3 ∧
    (feed (soft 1) [0x31#8, 0x40#8, 0x40#8]).halted = false := by decide

/-- A run that executes both its operations. -/
theorem witness_HaltedRunHasNoObservation_endedWell :
    (runFor 5 (feed noBuf [0x01#8, 0x30#8, 0x01#8, 0x02#8, 0x03#8])).1.endedWell ∧
    (feed noBuf [0x01#8, 0x30#8, 0x01#8, 0x02#8, 0x03#8]).input.length = 5 := by decide

/-- No operation left. -/
theorem witness_ObservationFollowsOperations_done :
    (soft 1).Live ∧ (soft 1).input = [] := by decide

/-- An unassigned opcode, and a truncated SETCH. -/
theorem witness_ObservationFollowsOperations_refused :
    (feed (soft 1) [0x55#8]).Live ∧ decode (feed (soft 1) [0x55#8]).input = .refuse .opcode ∧
    decode (feed (soft 1) [0x10#8, 0x00#8]).input = .refuse .truncated := by decide

/-- A WRITE that is not ready. -/
theorem witness_ObservationFollowsOperations_faulted :
    (feed (soft 1) [0x40#8, 0x01#8]).Live ∧ decode (feed (soft 1) [0x40#8, 0x01#8]).input = .op .write [0x01#8] ∧
    after (exec .write (feed (soft 1) [0x40#8, 0x01#8])) State.halted = some true := by decide

/-- A SETBCU with a WRITE after it. -/
theorem witness_ObservationFollowsOperations_completed :
    (feed (soft 1) [0x31#8, 0x40#8, 0x40#8]).Live ∧
    decode (feed (soft 1) [0x31#8, 0x40#8, 0x40#8]).input = .op (.setbcu 64#8) [0x40#8] ∧
    after (exec (.setbcu 64#8) (feed (soft 1) [0x31#8, 0x40#8, 0x40#8])) State.halted = some false := by decide

end Sys2Proof.Tests
end

/-! PROOFS. The family of `00_scope.md`: a step runs the decoded operation, the parameters never change, and the atomic
WRITE is the serializer's own run. -/

namespace Sys2Proof.Machine

/-! ## A step outside a WRITE -/

/-- Outside a WRITE a live machine runs the operation its next bytes decode to (R12, R31, R71). -/
theorem step_host {s : State} {i : Instr} {rest : List Byte} (hh : s.halted = false) (hp : s.position = none)
    (hd : decode s.input = .op i rest) : step s = retire rest (exec i s) := by
  simp [step, nextAction, hh, hp, hd]

/-- Settles O10: `step_host`, with `retire` written out for each outcome of `exec`. -/
theorem stepRunsDecodedOperation : Obligations.StepRunsDecodedOperation := by
  intro s i rest hh hp hd
  rw [step_host hh hp hd]
  cases exec i s with
  | next t => rfl
  | fault f => rfl
  | refused r => rfl

/-! ## The parameters -/

@[simp] theorem initialiseTransport_params (s : State) : (initialiseTransport s).params = s.params := by
  rw [initialiseTransport_eq]

@[simp] theorem reportAllocFail_params (s : State) : (reportAllocFail s).params = s.params := by
  rw [reportAllocFail_eq]

@[simp] theorem sendCommand_params (cmd : Cmd) (s : State) : (sendCommand cmd s).params = s.params := by
  rw [sendCommand_frame]

@[simp] theorem finishByte_params (x : Byte) (k : Nat) (s : State) : (finishByte x k s).params = s.params := by
  rw [finishByte_frame]

@[simp] theorem openTransmission_params (s : State) : (openTransmission s).params = s.params := by
  rw [openTransmission_eq]

@[simp] theorem closeTransmission_params (s : State) : (closeTransmission s).params = s.params := by
  rw [closeTransmission_eq]

@[simp] theorem transmit_params (s : State) : (transmit s).params = s.params := by
  rw [transmit_eq]

/-- However a byte ends, the parameters stay. -/
@[simp] theorem afterByte_params (p : Position) (s : State) : (afterByte p s).params = s.params := by
  rcases afterByte_cases p s with ⟨-, e⟩ | ⟨-, -, e⟩ | ⟨-, -, e⟩ <;> simp [e]

/-- An operation that completes keeps the parameters. -/
theorem Completes.params_eq {i : Instr} {s t : State} (h : Completes i s t) : t.params = s.params := by
  cases h with
  | beginDrawn hi ha ht => simp [ht]
  | beginFailed hi ha ht => simp [ht]
  | setch idx val hi ha h ht => simp [ht]
  | setled k r g b hi ha h ht => simp [ht]
  | bright hi r g b ht => simp [ht]
  | plain hi r ht => simp [ht]
  | write hi hr ha ht => simp [ht]

/-- Every instruction keeps the parameters (R6). -/
theorem exec_params {i : Instr} {s t : State} (h : exec i s = .next t) : t.params = s.params := by
  cases exec_answers h with
  | halted hh ht => rw [ht]
  | refused hh r ht => simp [ht]
  | raised hl f hr ht => simp [ht]
  | completed hl hc => exact hc.params_eq
  | sent hh hf r g b hi ht => simp [ht]

/-- Settles O45, by the ways a step answers. -/
theorem parametersNeverChange : Obligations.ParametersNeverChange := by
  intro s t h
  cases step_steps h with
  | halted hh ht => rw [ht]
  | idle hh hp hd ht => rw [ht]
  | refused hh hp r hd ht => simp [ht]
  | host hh hp i rest hd u he ht =>
    have hu := exec_params he
    rw [ht]
    split <;> exact hu
  | wire hh hf ht => simp [ht]
  | turn hh p hp hf hs =>
    obtain ⟨-, -, -, -, ht⟩ := serializerTurn_next hs
    simp [ht]

/-! ## The atomic WRITE and the serializer's run -/

/-- Transfers go on in the same frame, by as many bytes. -/
theorem MidFrame.after_transfers {s u : State} {n b : Nat} (m : MidFrame s u n b) (bs : List Byte) :
    MidFrame s (transferAll bs u) n (b + bs.length) := by
  induction bs generalizing u b with
  | nil => exact m
  | cons x bs ih =>
    rw [transferAll_cons, List.length_cons, Nat.add_comm bs.length, ← Nat.add_assoc]
    exact ih (m.transfer x)

/-- Within the same WRITE, the serializer may stand at the head of any device's frame. -/
theorem MidFrame.at_head {s u : State} {n b : Nat} (m : MidFrame s u n b) (n' : Nat) :
    MidFrame s (u.atFrame n') n' 0 :=
  { m with position := rfl }

/-- A frame sent from its head, with the registers and the buffer of the WRITE's state. -/
theorem MidFrame.sendFrame_eq {s v : State} {n : Nat} (m : MidFrame s (v.atFrame n) n 0) :
    sendFrame (buildCmd s.bcR s.bcG s.bcB) v n = transferAll (deviceFrame s n) (v.atFrame n) := by
  have h := Machine.sendFrame_eq s v n m.bcR m.bcG m.bcB m.pwm
  rwa [show v.bcR = s.bcR from m.bcR, show v.bcG = s.bcG from m.bcG, show v.bcB = s.bcB from m.bcB] at h

/-- After a frame's 28 bytes the serializer is still in the WRITE, at the frame's end. -/
theorem MidFrame.after_frame {s v : State} {n : Nat} (m : MidFrame s (v.atFrame n) n 0) :
    MidFrame s (sendFrame (buildCmd s.bcR s.bcG s.bcB) v n) n 28 := by
  have h := m.after_transfers (deviceFrame s n)
  rwa [deviceFrame_length, ← m.sendFrame_eq] at h

/-- The frames of devices `n` to `n + k`, the last of the chain, are `25 * (k + 1)` steps, and the last step closes the
transmission (R93, R100). -/
theorem run_frames (s : State) (k n : Nat) (v : State) (hN : n + (k + 1) = s.params.chainLength)
    (m : MidFrame s (v.atFrame n) n 0) :
    Host.Core.run core (25 * (k + 1)) (v.atFrame n) = .next (closeTransmission
      ((List.range' n (k + 1)).foldl (sendFrame (buildCmd s.bcR s.bcG s.bcB)) v)).dropOpcode := by
  induction k generalizing n v with
  | zero =>
    have hlast : ¬ n + 1 < (sendFrame (buildCmd s.bcR s.bcG s.bcB) v n).params.chainLength := by
      rw [m.after_frame.params]; omega
    have hframe := run_frame s v n (by omega) m
    rw [← m.sendFrame_eq, afterFrame, if_neg hlast] at hframe
    rw [Nat.zero_add, Nat.mul_one, List.range'_one, hframe, List.foldl_cons, List.foldl_nil]
  | succ k ih =>
    have hmore : n + 1 < (sendFrame (buildCmd s.bcR s.bcG s.bcB) v n).params.chainLength := by
      rw [m.after_frame.params]; omega
    have hframe := run_frame s v n (by omega) m
    rw [← m.sendFrame_eq, afterFrame, if_pos hmore] at hframe
    rw [show 25 * (k + 1 + 1) = 25 + 25 * (k + 1) by ring, run_add _ _ _ _ hframe,
      ih (n + 1) _ (by omega) (m.after_frame.at_head _), List.range'_succ (s := n), List.foldl_cons]

/-- From the head of device 0's frame in the opened transmission, `25 * N` steps give the whole transmission and take the
WRITE's byte off the host's sequence. -/
theorem run_opened {s : State} (hh : s.halted = false) (ha : s.params.allocOk = true)
    (hN : 1 ≤ s.params.chainLength) :
    Host.Core.run core (25 * s.params.chainLength) ((openTransmission s).atFrame 0) =
      .next (transmit s).dropOpcode := by
  have m : MidFrame s ((openTransmission s).atFrame 0) 0 0 := by
    rw [openTransmission_eq]
    exact ⟨hh, rfl, rfl, rfl, ha, rfl, rfl, rfl, rfl, rfl⟩
  obtain ⟨k, hk⟩ := Nat.exists_eq_add_of_le' hN
  have h := run_frames s k 0 (openTransmission s) (by omega) m
  rw [← hk, ← List.range_eq_range'] at h
  simpa only [transmit, sendFrames, openTransmission_params] using h

/-- The step of a ready WRITE: the whole transmission, with the WRITE's byte taken off (R12, R31). -/
theorem step_write_ready {s : State} {rest : List Byte} (hs : s.Live) (hr : s.ready = true)
    (ha : s.params.allocOk = true) (hi : s.input = encode .write ++ rest) :
    step s = .next (transmit s).dropOpcode := by
  have hd : decode s.input = .op .write rest := by rw [hi]; rfl
  have hlive : (transmit s).halted = false := by
    rw [← hs.1, transmit_eq]; exact State.halted_congr rfl rfl
  have hrest : (transmit s).input.drop 1 = rest := by rw [transmit_eq, hi]; rfl
  rw [step_host hs.1 (State.position_of_not_busy hs.2) hd, exec_write_ready hs hr ha, State.dropOpcode, hrest]
  simp [retire, hlive]

/-- Settles O40: both sides are the whole transmission with the WRITE's byte taken off the host's sequence. -/
theorem atomicWriteIsSerializerRun : Obligations.AtomicWriteIsSerializerRun := by
  intro s rest hs hr ha hN hi
  exact ⟨_, step_write_ready hs hr ha hi, run_opened hs.1 ha hN⟩

end Sys2Proof.Machine

/-! PROOFS. The family of `10_state.md`: the invariant at construction and at every step, the append-only trace, the count of
operations, who writes which register, the serializer's turn, and the observation of a run. -/

namespace Sys2Proof.Machine

/-! ## Facts about the state and the serializer's position -/

/-- A state that is not busy has no critical section. -/
theorem State.inCritical_of_not_busy {s : State} (h : s.busy = false) : s.inCritical = false := by
  simp only [State.busy, Bool.or_eq_false_iff] at h
  obtain ⟨⟨hc, -⟩, -⟩ := h
  exact hc

/-- At bit 7 of any byte of any device's frame the position is in R36's ranges, under either transport. -/
theorem Position.legal_bit_seven {n b : Nat} {q : Params} (hn : n < q.chainLength) (hb : b < 28) :
    Position.legal { device := n, byte := b, bit := 7 } q = true := by
  cases ht : q.transport <;> simp [Position.legal, ht, hn, hb]

/-- R36's range of the device. -/
theorem Position.device_lt_of_legal {p : Position} {q : Params} (h : p.legal q = true) : p.device < q.chainLength := by
  simp only [Position.legal, Bool.and_eq_true, decide_eq_true_eq] at h
  obtain ⟨⟨hn, -⟩, -⟩ := h
  exact hn

/-- At a frame's head a WRITE is in progress and the position is bit 7 of byte 0 of a device of the chain (R36, R102). -/
theorem State.atFrameHead_position {s : State} (h : s.atFrameHead = true) :
    s.inCritical = true ∧ ∃ n, n < s.params.chainLength ∧ s.position = some { device := n, byte := 0, bit := 7 } := by
  unfold State.atFrameHead at h
  cases hp : s.position with
  | none => simp [hp] at h
  | some p =>
    obtain ⟨n, b, k⟩ := p
    simp only [hp, Bool.and_eq_true, decide_eq_true_eq] at h
    obtain ⟨⟨hc, -⟩, ⟨hleg, rfl⟩, rfl⟩ := h
    exact ⟨hc, n, Position.device_lt_of_legal hleg, rfl⟩

/-- Past byte 0 or past bit 7 the serializer is not at a frame's head. -/
theorem State.atFrameHead_of_inside {s : State} {n b k : Nat}
    (hp : s.position = some { device := n, byte := b, bit := k }) (h : b ≠ 0 ∨ k ≠ 7) : s.atFrameHead = false := by
  rcases h with h | h <;> simp [State.atFrameHead, hp, h]

/-- Under the hardware transport a byte leaves the clock line as it was (R35, R116). -/
theorem foldl_sckAfter_hardware (bs : List Byte) (l : PinLevel) :
    bs.foldl (fun l _ => sckAfter .hardwarePeripheral l) l = l :=
  List.foldl_fixed bs

/-- Under the hardware transport a byte leaves the data line as it was (R35, R116). -/
theorem foldl_sdoAfter_hardware (bs : List Byte) (l : PinLevel) :
    bs.foldl (fun l x => sdoAfter .hardwarePeripheral l x) l = l :=
  List.foldl_fixed bs

/-! ## The invariant under each update of the state -/

section Invariant

variable {s : State}

/-- A machine that meets the invariant and is not halted has legal parameters (R146). -/
theorem State.Inv.params_wf (h : s.Inv) (hh : s.halted = false) : s.params.wf = true := by
  obtain ⟨-, -, -, hcfg, -⟩ := h
  cases hw : s.params.wf with
  | true => rfl
  | false => cases (State.refusal_of_not_halted hh).symm.trans (hcfg hw)

/-- A refusal marks a state that has no fault (R136, R137). -/
theorem State.Inv.refuse (h : s.Inv) (hh : s.halted = false) (r : RefReason) : (s.refuse r).Inv := by
  have hp := h.params_wf hh
  obtain ⟨hwf, hbelow, hnone, -, hok, halloc, hpins, hfail, htxn, hpos, hcrit, hleg, hhw, -⟩ := h
  exact ⟨hwf, hbelow, hnone, fun hw => absurd (hp.symm.trans hw) (by decide), hok, halloc, hpins, hfail, htxn, hpos, hcrit,
    hleg, hhw, .inl (show s.fault = none from State.fault_of_not_halted hh)⟩

/-- A fault marks a state that has no refusal (R131, R137). -/
theorem State.Inv.raise (h : s.Inv) (hh : s.halted = false) (f : FaultRecord) : (s.raise f).Inv := by
  obtain ⟨hwf, hbelow, hnone, hcfg, hok, halloc, hpins, hfail, htxn, hpos, hcrit, hleg, hhw, -⟩ := h
  exact ⟨hwf, hbelow, hnone, hcfg, hok, halloc, hpins, hfail, htxn, hpos, hcrit, hleg, hhw,
    .inr (show s.refusal = none from State.refusal_of_not_halted hh)⟩

/-- A write below `C` to a buffer that exists (R21, R41). -/
theorem State.Inv.putChannel (h : s.Inv) (ha : s.params.allocOk = true) {j : Nat} (hj : j < channelCount s.params)
    (v : Word) : (s.putChannel j v).Inv := by
  obtain ⟨hwf, hbelow, -, hrest⟩ := h
  exact ⟨Memory.wf_write hwf j v, Memory.below_write hbelow hj v, fun hn => absurd (ha.symm.trans hn) (by decide), hrest⟩

/-- BEGIN with a buffer, whatever the draw (R26, R27, R124). -/
theorem State.Inv.initialiseTransport (h : s.Inv) (hl : s.Live) (ha : s.params.allocOk = true) :
    (initialiseTransport s).Inv := by
  obtain ⟨-, hbusy⟩ := hl
  obtain ⟨hwf, hbelow, hnone, hcfg, -, -, -, -, htxn, hpos, -, hleg, hhw, hmark⟩ := h
  have hready : Config.transportOk s.draws = true ↔
      (if Config.transportOk s.draws then InitStatus.ok else .transportFail) = .ok := by
    cases Config.transportOk s.draws <;> simp
  have hfail : (if Config.transportOk s.draws then InitStatus.ok else .transportFail) ≠ .allocFail := by
    cases Config.transportOk s.draws <;> simp
  have hpins : s.params.transport = .softwareBitBang →
      (if s.params.transport = .softwareBitBang then true else s.pinsConfigured) = true := fun ht => if_pos ht
  have hhw' : s.params.transport = .hardwarePeripheral → s.sck = .unknown ∧ s.sdo = .unknown ∧
      (if s.params.transport = .softwareBitBang then true else s.pinsConfigured) = false := fun ht => by
    simpa [ht] using hhw ht
  have hcrit : s.inCritical = true → Config.transportOk s.draws = true ∧ s.interruptsEnabled = false := fun hc =>
    absurd (hc.symm.trans (State.inCritical_of_not_busy hbusy)) (by decide)
  rw [initialiseTransport_eq]
  exact ⟨hwf, hbelow, hnone, hcfg, hready, fun _ => ha, fun _ => hpins, fun hf => absurd hf hfail, htxn, hpos, hcrit, hleg,
    hhw', hmark⟩

/-- BEGIN without a buffer (R27, R124). -/
theorem State.Inv.reportAllocFail (h : s.Inv) (hl : s.Live) (ha : s.params.allocOk = false) :
    (reportAllocFail s).Inv := by
  obtain ⟨-, hbusy⟩ := hl
  obtain ⟨hwf, hbelow, hnone, hcfg, -, -, -, -, htxn, hpos, -, hleg, hhw, hmark⟩ := h
  have hcrit : s.inCritical = true → false = true ∧ s.interruptsEnabled = false := fun hc =>
    absurd (hc.symm.trans (State.inCritical_of_not_busy hbusy)) (by decide)
  exact ⟨hwf, hbelow, hnone, hcfg, by simp [Machine.reportAllocFail_eq], nofun, nofun, fun _ => ha, htxn, hpos, hcrit, hleg,
    hhw, hmark⟩

/-- The pins that a list of bytes leaves: no pin state under the hardware transport (R35). -/
theorem State.Inv.transfers (h : s.Inv) (bs : List Byte) : State.Inv { s with
    sck := bs.foldl (fun l _ => sckAfter s.params.transport l) s.sck
    sdo := bs.foldl (fun l x => sdoAfter s.params.transport l x) s.sdo } := by
  obtain ⟨hwf, hbelow, hnone, hcfg, hok, halloc, hpins, hfail, htxn, hpos, hcrit, hleg, hhw, hmark⟩ := h
  refine ⟨hwf, hbelow, hnone, hcfg, hok, halloc, hpins, hfail, htxn, hpos, hcrit, hleg, fun ht => ?_, hmark⟩
  simpa only [show s.params.transport = _ from ht, foldl_sckAfter_hardware, foldl_sdoAfter_hardware] using hhw ht

/-- In a WRITE in progress the serializer moves to any position in R36's ranges. -/
theorem State.Inv.at_position (h : s.Inv) (hc : s.inCritical = true) {p : Position} (hp : p.legal s.params = true) :
    State.Inv { s with position := some p } := by
  obtain ⟨hwf, hbelow, hnone, hcfg, hok, halloc, hpins, hfail, htxn, -, hcrit, -, hhw, hmark⟩ := h
  exact ⟨hwf, hbelow, hnone, hcfg, hok, halloc, hpins, hfail, htxn, hc, hcrit, by simpa using hp, hhw, hmark⟩

/-- A WRITE ends: critical section, transaction and position go together (R33, R34, R36, R121). -/
theorem State.Inv.outside_write (h : s.Inv) : State.Inv { s with
    inCritical := false, txnHeld := false, interruptsEnabled := true, position := none } := by
  obtain ⟨hwf, hbelow, hnone, hcfg, hok, halloc, hpins, hfail, -, -, -, -, hhw, hmark⟩ := h
  exact ⟨hwf, hbelow, hnone, hcfg, hok, halloc, hpins, hfail, rfl, rfl, nofun, nofun, hhw, hmark⟩

/-- The whole transmission of a WRITE. -/
theorem State.Inv.transmit (h : s.Inv) : (transmit s).Inv := by
  rw [transmit_eq]
  exact (h.transfers (chainStream s)).outside_write

/-- The command word at a frame's head leaves the serializer at byte 4 of the same frame (R97). -/
theorem State.Inv.sendCommand (h : s.Inv) (hf : s.atFrameHead = true) (cmd : Cmd) : (sendCommand cmd s).Inv := by
  obtain ⟨hc, n, hn, hp⟩ := State.atFrameHead_position hf
  rw [sendCommand_eq, transferAll_eq, transferAll_position _ _ _ _ hp]
  exact (h.transfers (cmdBytes cmd)).at_position hc (Position.legal_bit_seven hn (by simp [cmdBytes]))

/-- The rest of a byte and what follows it: the next byte, the next frame's head, or the end of the WRITE. -/
theorem State.Inv.afterByte (h : s.Inv) (hc : s.inCritical = true) {p : Position} (hp : s.position = some p)
    (hleg : p.legal s.params = true) (x : Byte) : (afterByte p (finishByte x p.bit s)).Inv := by
  have hx := h.transfers [x]
  rcases afterByte_cases p (finishByte x p.bit s) with ⟨hb, e⟩ | ⟨-, hn, e⟩ | ⟨-, -, e⟩ <;> rw [e]
  · rw [finishByte_frame, State.nextByte_position, hp]
    exact hx.at_position hc (Position.legal_bit_seven (Position.device_lt_of_legal hleg) hb)
  · rw [finishByte_params] at hn
    rw [finishByte_frame]
    exact hx.at_position hc (Position.legal_bit_seven hn (by decide))
  · rw [closeTransmission_eq, finishByte_frame]
    exact hx.outside_write

end Invariant

/-! ## The invariant at construction and at every step -/

/-- An operation that completes keeps the invariant. -/
theorem Completes.inv {i : Instr} {s t : State} (hc : Completes i s t) (hl : s.Live) (h : s.Inv) : t.Inv := by
  cases hc with
  | beginDrawn hi ha ht => rw [ht]; exact h.initialiseTransport hl ha
  | beginFailed hi ha ht => rw [ht]; exact h.reportAllocFail hl ha
  | setch idx val hi ha hx ht => rw [ht]; exact h.putChannel ha hx val
  | setled k r g b hi ha hk ht =>
    rw [ht]
    exact ((h.putChannel ha (ledChannel_below hk (by decide)) r).putChannel ha (ledChannel_below hk (by decide)) g).putChannel
      ha (ledChannel_below hk (by decide)) b
  | bright hi r g b ht => rw [ht]; exact h
  | plain hi r ht => rw [ht]; exact h
  | write hi hr ha ht => rw [ht]; exact h.transmit

/-- Every instruction keeps the invariant. -/
theorem exec_inv {i : Instr} {s t : State} (h : s.Inv) (he : exec i s = .next t) : t.Inv := by
  cases exec_answers he with
  | halted hh ht => rw [ht]; exact h
  | refused hh r ht => rw [ht]; exact h.refuse hh r
  | raised hl f hr ht => rw [ht]; exact h.raise hl.1 f
  | completed hl hc => exact hc.inv hl h
  | sent hh hf r g b hi ht => rw [ht]; exact h.sendCommand hf _

/-- Settles O43, by the ways a step answers. -/
theorem stepKeepsInvariant : Obligations.StepKeepsInvariant := by
  intro s t h hs
  cases step_steps hs with
  | halted hh ht => rw [ht]; exact h
  | idle hh hp hd ht => rw [ht]; exact h
  | refused hh hp r hd ht => rw [ht]; exact h.refuse hh r
  | host hh hp i rest hd u he ht =>
    have hu := exec_inv h he
    rw [ht]
    split <;> exact hu
  | wire hh hf ht => rw [ht]; exact h.sendCommand hf _
  | turn hh p hp hf hst =>
    obtain ⟨-, hc, -, hleg, ht⟩ := serializerTurn_next hst
    rw [ht]
    exact h.afterByte hc hp hleg _

/-- Settles O42: legal parameters give the values of R39, and illegal ones the REF_CONFIG refusal. -/
theorem constructionMeetsInvariant : Obligations.ConstructionMeetsInvariant := by
  have hconstruct : ∀ (p : Params) (input : List Byte), (construct p input).Inv := by
    intro p input
    cases hw : p.wf with
    | true => simp [construct, hw, State.initial, State.Inv]
    | false => simp [construct, hw, State.initial, State.refuse, State.Inv]
  exact ⟨hconstruct Config.resetParams [], hconstruct⟩

/-- Settles O14: with legal parameters construction is `State.initial`, with the host's sequence. -/
theorem constructionLeavesResetValues : Obligations.ConstructionLeavesResetValues := by
  intro p input h1 hN
  have hw : p.wf = true := by simp [Params.wf, h1, hN]
  have hc : construct p input = { State.initial p with input := input } := by simp [construct, hw]
  simp [hc, State.initial, State.channel, State.refused, wrcmdMagic, modeFlags]

/-! ## The trace -/

/-- An operation that completes only appends to the trace. -/
theorem Completes.trace_extends {i : Instr} {s t : State} (h : Completes i s t) : s.trace <+: t.trace := by
  cases h with
  | beginDrawn hi ha ht => simp [ht, initialiseTransport_eq]
  | beginFailed hi ha ht => simp [ht, reportAllocFail_eq]
  | setch idx val hi ha hx ht => simp [ht]
  | setled k r g b hi ha hk ht => simp [ht]
  | bright hi r g b ht => simp [ht]
  | plain hi r ht => simp [ht]
  | write hi hr ha ht => simp [ht, transmit_eq]

theorem sendCommand_trace_extends (cmd : Cmd) (s : State) : s.trace <+: (sendCommand cmd s).trace := by
  rw [sendCommand_frame]; exact ⟨_, rfl⟩

theorem finishByte_trace_extends (x : Byte) (k : Nat) (s : State) : s.trace <+: (finishByte x k s).trace := by
  rw [finishByte_frame]; exact ⟨_, rfl⟩

theorem afterByte_trace_extends (p : Position) (s : State) : s.trace <+: (afterByte p s).trace := by
  rcases afterByte_cases p s with ⟨-, e⟩ | ⟨-, -, e⟩ | ⟨-, -, e⟩ <;> simp [e, closeTransmission_eq]

/-- Every instruction only appends to the trace (R30). -/
theorem exec_trace_extends {i : Instr} {s t : State} (h : exec i s = .next t) : s.trace <+: t.trace := by
  cases exec_answers h with
  | halted hh ht => simp [ht]
  | refused hh r ht => simp [ht]
  | raised hl f hr ht => simp [ht]
  | completed hl hc => exact hc.trace_extends
  | sent hh hf r g b hi ht => rw [ht]; exact sendCommand_trace_extends _ _

/-- Every step only appends to the trace (R30). -/
theorem step_trace_extends {s t : State} (h : step s = .next t) : s.trace <+: t.trace := by
  cases step_steps h with
  | halted hh ht => simp [ht]
  | idle hh hp hd ht => simp [ht]
  | refused hh hp r hd ht => simp [ht]
  | host hh hp i rest hd u he ht =>
    have hu := exec_trace_extends he
    rw [ht]
    split <;> exact hu
  | wire hh hf ht => rw [ht]; exact sendCommand_trace_extends _ _
  | turn hh p hp hf hst =>
    obtain ⟨-, -, -, -, ht⟩ := serializerTurn_next hst
    rw [ht]
    exact (finishByte_trace_extends _ _ _).trans (afterByte_trace_extends _ _)

/-- Settles O46, by `step_trace_extends`. -/
theorem traceIsAppendOnly : Obligations.TraceIsAppendOnly := by
  intro s t h
  obtain ⟨es, he⟩ := step_trace_extends h
  exact ⟨es, he.symm⟩

/-! ## The count of operations -/

/-- An operation that completes counts `pc` by one (R31). -/
theorem Completes.pc_eq {i : Instr} {s t : State} (h : Completes i s t) : t.pc = s.pc + 1 := by
  cases h with
  | beginDrawn hi ha ht => simp [ht, initialiseTransport_eq]
  | beginFailed hi ha ht => simp [ht, reportAllocFail_eq]
  | setch idx val hi ha hx ht => simp [ht]
  | setled k r g b hi ha hk ht => simp [ht]
  | bright hi r g b ht => simp [ht]
  | plain hi r ht => simp [ht]
  | write hi hr ha ht => simp [ht, transmit_eq]

/-- An operation that completes leaves the marks as they were (R131, R136). -/
theorem Completes.halted_eq {i : Instr} {s t : State} (h : Completes i s t) : t.halted = s.halted := by
  cases h with
  | beginDrawn hi ha ht => rw [ht, initialiseTransport_eq]; rfl
  | beginFailed hi ha ht => rw [ht]; rfl
  | setch idx val hi ha hx ht => rw [ht]; rfl
  | setled k r g b hi ha hk ht => rw [ht]; rfl
  | bright hi r g b ht => rw [ht]; rfl
  | plain hi r ht => rw [ht]; rfl
  | write hi hr ha ht => rw [ht, transmit_eq]; rfl

/-- `pc` stays, or an operation completed with no mark. -/
abbrev State.CountsTo (s t : State) : Prop := t.pc = s.pc ∨ (t.pc = s.pc + 1 ∧ t.halted = false)

theorem sendCommand_pc (cmd : Cmd) (s : State) : (sendCommand cmd s).pc = s.pc := by
  rw [sendCommand_frame]

/-- The rest of a byte counts `pc` only where the transmission closes (R31, R93). -/
theorem afterByte_countsTo (p : Position) (x : Byte) (k : Nat) {s : State} (hh : s.halted = false) :
    s.CountsTo (afterByte p (finishByte x k s)) := by
  rcases afterByte_cases p (finishByte x k s) with ⟨-, e⟩ | ⟨-, -, e⟩ | ⟨-, -, e⟩ <;> rw [e]
  · left; rw [finishByte_frame]
  · left; rw [State.atFrame_pc, finishByte_frame]
  · right
    rw [closeTransmission_eq, finishByte_frame]
    exact ⟨rfl, hh⟩

/-- Every instruction leaves `pc`, or counts it by one with no mark (R31). -/
theorem exec_countsTo {i : Instr} {s t : State} (h : exec i s = .next t) : s.CountsTo t := by
  cases exec_answers h with
  | halted hh ht => exact .inl (by simp [ht])
  | refused hh r ht => exact .inl (by simp [ht])
  | raised hl f hr ht => exact .inl (by simp [ht])
  | completed hl hc => exact .inr ⟨hc.pc_eq, hc.halted_eq.trans hl.1⟩
  | sent hh hf r g b hi ht => exact .inl (by rw [ht, sendCommand_pc])

/-- Every step leaves `pc`, or counts it by one with no mark (R31, R122). -/
theorem step_countsTo {s t : State} (h : step s = .next t) : s.CountsTo t := by
  cases step_steps h with
  | halted hh ht => exact .inl (by simp [ht])
  | idle hh hp hd ht => exact .inl (by simp [ht])
  | refused hh hp r hd ht => exact .inl (by simp [ht])
  | host hh hp i rest hd u he ht =>
    have hu := exec_countsTo he
    rw [ht]
    split <;> exact hu
  | wire hh hf ht => exact .inl (by rw [ht, sendCommand_pc])
  | turn hh p hp hf hst =>
    obtain ⟨-, -, -, -, ht⟩ := serializerTurn_next hst
    rw [ht]
    exact afterByte_countsTo _ _ _ hh

/-- Settles O47, by `step_countsTo`. -/
theorem pcCountsByOne : Obligations.PcCountsByOne := by
  intro s t h
  rcases step_countsTo h with hpc | ⟨hpc, hh⟩
  · exact ⟨.inl hpc, fun _ => hpc⟩
  · exact ⟨.inr hpc, fun ht => absurd (ht.symm.trans hh) (by decide)⟩

/-! ## Who writes what -/

/-- Settles O50: an instruction that does not complete writes none of these registers, and each way of completing writes its
own. -/
theorem eachRegisterHasItsWriters : Obligations.EachRegisterHasItsWriters := by
  intro s t i h
  cases exec_answers h with
  | halted hh ht => simp [ht]
  | refused hh r ht => simp [ht]
  | raised hl f hr ht => simp [ht]
  | sent hh hf r g b hi ht =>
    rw [ht, sendCommand_frame]
    simp [hi]
  | completed hl hc =>
    cases hc with
    | beginDrawn hi ha ht => simp [hi, ht, initialiseTransport_eq]
    | beginFailed hi ha ht => simp [hi, ht, reportAllocFail_eq]
    | setch idx val hi ha hx ht => simp [hi, ht]
    | setled k r g b hi ha hk ht => simp [hi, ht]
    | bright hi r g b ht => simp [hi, ht]
    | plain hi r ht => simp [ht]
    | write hi hr ha ht => simp [hi, ht, transmit_eq]

/-! ## The serializer's turn -/

/-- Settles O38: the position is a frame's head, so the next action is the command word. -/
theorem stepAtFrameHeadRunsWrcmd : Obligations.StepAtFrameHeadRunsWrcmd := by
  intro s hh hf
  obtain ⟨-, n, -, hp⟩ := State.atFrameHead_position hf
  simp [step, nextAction, hh, hp, hf]

/-- Inside a frame of a WRITE in progress a step is the serializer's turn (R36, R112). -/
theorem step_turn {s : State} {p : Position} (hh : s.halted = false) (hp : s.position = some p)
    (hf : s.atFrameHead = false) (ha : s.params.allocOk = true) (hc : s.inCritical = true) (ht : s.txnHeld = true)
    (hleg : p.legal s.params = true) :
    step s = .next (afterByte p (finishByte (frameByte s p.device p.byte) p.bit s)) := by
  simp only [step, nextAction, hh, hp, hf]
  exact serializerTurn_runs ha hc ht hleg

/-- The state after the rest of byte `x` from bit `k` on, but for the position: the events of the bits in R112's order, and
the lines as the last bit leaves them. -/
def State.sentRest (x : Byte) (k : Nat) (s : State) : State := { s with
  trace := s.trace ++ (if k = 7 then [.byte x] else []) ++
    (if s.params.transport = .softwareBitBang then
      (List.range (k + 1)).reverse.flatMap fun j => [.sck false, .sdo (x.getLsbD j), .sck true]
    else [])
  sck := if s.params.transport = .softwareBitBang then .high else s.sck
  sdo := if s.params.transport = .softwareBitBang then (if x.getLsbD 0 then .high else .low) else s.sdo }

theorem finishByte_eq_sentRest (x : Byte) (k : Nat) {s : State} {p : Position} (hp : s.position = some p) :
    finishByte x k s =
      { s.sentRest x k with position := some { device := p.device, byte := p.byte + 1, bit := 7 } } := by
  rw [finishByte_frame, State.nextByte_position, hp, bitsFrom_bitEvents, ← List.append_assoc]
  cases ht : s.params.transport <;> simp [State.sentRest, sckAfter, sdoAfter, pinOfBit, ht]

theorem settleMicros_eq (p : Params) : settleMicros p = if p.transport = .softwareBitBang then 200 else 2 := by
  cases ht : p.transport <;> simp [settleMicros, ht]

theorem afterByte_inside {p : Position} (hb : p.byte + 1 < 28) (s : State) : afterByte p s = s :=
  if_pos hb

theorem afterByte_next_frame {p : Position} {s : State} (hb : p.byte = 27)
    (hn : p.device + 1 < s.params.chainLength) : afterByte p s = s.atFrame (p.device + 1) := by
  rw [afterByte, if_neg (by omega), if_pos hn]

theorem afterByte_closes {p : Position} {s : State} (hb : p.byte = 27) (hn : p.device + 1 = s.params.chainLength) :
    afterByte p s = (closeTransmission s).dropOpcode := by
  rw [afterByte, if_neg (by omega), if_neg (by omega)]

/-- Settles O39: the turn sends the rest of the frame's byte, and the three ways it ends are those of `afterByte`. -/
theorem serializerSendsRestOfByte : Obligations.SerializerSendsRestOfByte := by
  intro s n b k hh hp hc ht ha hn hb hk hkh hin
  have hleg : Position.legal { device := n, byte := b, bit := k } s.params = true := by
    cases htr : s.params.transport with
    | softwareBitBang => simp [Position.legal, htr, hn, hb, hk]
    | hardwarePeripheral => simp [Position.legal, htr, hn, hb, hkh htr]
  refine ⟨frameByte s n b, deviceFrame_getElem? s s n b hb rfl rfl rfl rfl, ?_⟩
  have hstep := step_turn hh hp (State.atFrameHead_of_inside hp hin) ha hc ht hleg
  rw [finishByte_eq_sentRest _ _ hp] at hstep
  refine ⟨fun hb27 => ?_, fun hb27 hmore => ?_, fun hb27 hlast => ?_⟩
  · rw [hstep, afterByte_inside (Nat.succ_lt_succ hb27)]
    rfl
  · rw [hstep, afterByte_next_frame hb27 hmore]
    rfl
  · rw [hstep, afterByte_closes hb27 hlast, closeTransmission_eq, ← settleMicros_eq]
    rfl

/-! ## The observation of a run (R158) -/

/-- The observation of a run's end and its results. -/
def observationOf (r : State × List Result) : Option Observation :=
  if r.1.endedWell then
    some { trace := r.1.trace, results := r.2, pwm := r.1.pwm, bcR := r.1.bcR, bcG := r.1.bcG, bcB := r.1.bcB,
           ready := r.1.ready }
  else none

theorem observe_eq (s : State) : observe s = observationOf (runFor s.input.length s) := rfl

/-- A run that ends in a fault or refusal has no observation (R131, R136). -/
theorem observationOf_halted {r : State × List Result} (h : r.1.halted = true) : observationOf r = none := by
  simp [observationOf, State.endedWell, h]

/-- A result in front of a run's results stands in front of its observation's. -/
theorem observationOf_cons (t : State) (r : Result) (rs : List Result) :
    observationOf (t, r :: rs) = (observationOf (t, rs)).map fun o => { o with results := r :: o.results } := by
  by_cases h : t.endedWell <;> simp [observationOf, h]

/-- Outside a WRITE a live machine with bytes left is running. -/
theorem State.Live.running {s : State} (hl : s.Live) (hi : s.input ≠ []) : s.running = true := by
  obtain ⟨hh, -⟩ := hl
  simp [State.running, hh, hi]

/-- A step of a run: the rest of the run from its next state, with the result of the operation if it completed. -/
theorem runFor_step {s t : State} (hr : s.running = true) (hs : step s = .next t) (n : Nat) :
    runFor (n + 1) s = ((runFor n t).1, (if t.pc = s.pc + 1 then [t.result] else []) ++ (runFor n t).2) := by
  simp [runFor, hr, hs]

/-- A run whose first step meets a fault or refusal has no observation (R131, R136). -/
theorem observe_of_step_halted {s t : State} (hl : s.Live) (hi : s.input ≠ []) (hs : step s = .next t)
    (ht : t.halted = true) : observe s = none := by
  obtain ⟨n, hn⟩ := Nat.exists_eq_succ_of_ne_zero (mt List.length_eq_zero_iff.1 hi)
  rw [observe_eq, hn, runFor_step (hl.running hi) hs, runFor_of_not_running (running_of_halted ht)]
  exact observationOf_halted ht

/-- A run whose first operation completes: the rest of the run from its next state, with its result in front. The fuel left
over is enough, since the operation used up a byte. -/
theorem observe_of_step_completed {s t : State} (hl : s.Live) (hs : step s = .next t) (hb : t.busy = false)
    (hpc : t.pc = s.pc + 1) (hlen : t.input.length < s.input.length) :
    observe s = (observe t).map fun o => { o with results := t.result :: o.results } := by
  obtain ⟨n, hn⟩ := Nat.exists_eq_succ_of_ne_zero (Nat.ne_zero_of_lt hlen)
  have hi : s.input ≠ [] := List.ne_nil_of_length_pos (Nat.zero_lt_of_lt hlen)
  rw [observe_eq, observe_eq, hn, runFor_step (hl.running hi) hs, if_pos hpc,
    runFor_fuel (m := t.input.length) hb (by omega) le_rfl]
  exact observationOf_cons _ _ _

/-- Settles O53, by what the first step does. -/
theorem observationFollowsOperations : Obligations.ObservationFollowsOperations := by
  intro s hl
  have ⟨hh, hb⟩ := hl
  have hp := State.position_of_not_busy hb
  refine ⟨fun hi => ?_, fun reason hd => ?_, fun i rest t hd he => ?_⟩
  · have hr : runFor s.input.length s = (s, []) := by rw [hi]; rfl
    rw [observe_eq, hr]
    exact if_pos ⟨hi, hh, hb⟩
  · have hi : s.input ≠ [] := fun hi => by rw [hi] at hd; cases hd
    have hs : step s = .next (s.refuse reason) := by simp [step, nextAction, hh, hp, hd]
    exact observe_of_step_halted hl hi hs (by simp [State.halted, State.refused])
  · obtain ⟨hissued, hlen⟩ := decode_op hd
    have hi : s.input ≠ [] := List.ne_nil_of_length_pos (Nat.zero_lt_of_lt hlen)
    have hs := step_host hh hp hd
    rw [he, retire] at hs
    refine ⟨fun ht => ?_, fun ht => ?_⟩ <;> simp only [ht] at hs
    · exact observe_of_step_halted hl hi hs ht
    · obtain ⟨hbt, hpc⟩ := exec_completes hissued hl he ht
      exact observe_of_step_completed hl hs hbt hpc hlen

end Sys2Proof.Machine

/-! PROOFS. The family of `20_memory.md`: the store operations are idempotent (R50). -/

namespace Sys2Proof.Machine

/-! ## Writing a value the buffer already holds -/

/-- Writing the value an element already holds leaves a canonical buffer as it is. -/
theorem Memory.write_of_read {m : Memory} (h : m.wf = true) {i : Nat} {v : Word} (hv : m.read i = v) : m.write i v = m := by
  refine Memory.eq_of_read (Memory.wf_write h i v) h fun j => ?_
  by_cases hj : j = i
  · rw [hj, Memory.read_write_same h, hv]
  · exact Memory.read_write_ne m i v hj

theorem State.putChannel_of_channel {s : State} (h : s.pwm.wf = true) {i : Nat} {v : Word} (hv : s.channel i = v) :
    s.putChannel i v = s := by
  rw [State.putChannel, Memory.write_of_read h hv]

/-! ## Repeating an update on the state it left, completed -/

/-- A set_channel step finds its own value written, its own fault raised, or nothing to do (R78). -/
theorem setChannel_complete_setChannel {s : State} (hf : s.fault = none) (hw : s.pwm.wf = true) (o : Opcode) (j : Nat)
    (v : Word) (r : Result) :
    setChannel o j v ((setChannel o j v s).complete r) = (setChannel o j v s).complete r := by
  rcases Nat.lt_trichotomy j (channelCount s.params) with hj | hj | hj
  · rw [setChannel_below hf hj, setChannel_below (s := (s.putChannel j v).complete r) hf hj]
    exact State.putChannel_of_channel (Memory.wf_write hw j v) (channel_putChannel_same hw j v)
  · rw [setChannel_at hf hj]
    exact setChannel_faulted rfl o j v
  · rw [setChannel_beyond hf hj]
    exact setChannel_beyond (s := s.complete r) hf hj o v

/-- The three steps of an LED find their own values written, their own fault raised, or nothing to do (R82). -/
theorem setLed_complete_setLed {s : State} (hf : s.fault = none) (hw : s.pwm.wf = true) (o : Opcode) (k r g b : Word)
    (x : Result) :
    setLed o k r g b ((setLed o k r g b s).complete x) = (setLed o k r g b s).complete x := by
  rcases Nat.lt_trichotomy k.toNat (4 * s.params.chainLength) with hk | hk | hk
  · have h01 : ledChannel k 0 ≠ ledChannel k 1 := by simp [ledChannel]
    have h02 : ledChannel k 0 ≠ ledChannel k 2 := by simp [ledChannel]
    have h12 : ledChannel k 1 ≠ ledChannel k 2 := by simp [ledChannel]
    rw [setLed_below hf hk]
    set s₁ := s.putChannel (ledChannel k 0) r
    set s₂ := s₁.putChannel (ledChannel k 1) g
    set s₃ := s₂.putChannel (ledChannel k 2) b
    have hw₁ : s₁.pwm.wf = true := Memory.wf_write hw _ r
    have hw₂ : s₂.pwm.wf = true := Memory.wf_write hw₁ _ g
    have hw₃ : (s₃.complete x).pwm.wf = true := Memory.wf_write hw₂ _ b
    have hr : (s₃.complete x).channel (ledChannel k 0) = r :=
      calc s₃.channel (ledChannel k 0) = s₂.channel (ledChannel k 0) := channel_putChannel_ne s₂ _ b h02
        _ = s₁.channel (ledChannel k 0) := channel_putChannel_ne s₁ _ g h01
        _ = r := channel_putChannel_same hw _ r
    have hg : (s₃.complete x).channel (ledChannel k 1) = g :=
      (channel_putChannel_ne s₂ _ b h12).trans (channel_putChannel_same hw₁ _ g)
    have hb : (s₃.complete x).channel (ledChannel k 2) = b := channel_putChannel_same hw₂ _ b
    rw [setLed_below (s := s₃.complete x) hf hk, State.putChannel_of_channel hw₃ hr, State.putChannel_of_channel hw₃ hg,
      State.putChannel_of_channel hw₃ hb]
  · rw [setLed_at hf hk, setLed, setChannel_faulted rfl, setChannel_faulted rfl, setChannel_faulted rfl]
  · rw [setLed_beyond hf hk]
    exact setLed_beyond (s := s.complete x) hf hk o r g b

/-! ## A host operation done twice -/

/-- Where a fault or refusal stands, every instruction leaves the state as it is (R131, R136). -/
theorem exec_of_halted {i : Instr} {s t : State} (hh : s.halted = true) (h : exec i s = .next t) : t = s := by
  cases exec_answers h with
  | halted _ ht => exact ht
  | refused hn => cases hh.symm.trans hn
  | raised hl => cases hh.symm.trans hl.1
  | completed hl => cases hh.symm.trans hl.1
  | sent hn => cases hh.symm.trans hn

/-- A host operation that left no fault or refusal ran in a live state, and left one. -/
theorem exec_live {i : Instr} {s t : State} (hi : i.hostIssued = true) (h : exec i s = .next t)
    (hh : t.halted = false) : s.Live ∧ t.Live := by
  have hs : s.Live := by
    cases exec_answers h with
    | halted hn ht => subst ht; cases hn.symm.trans hh
    | refused hn r ht => subst ht; simp [State.halted, State.refused] at hh
    | raised hl => exact hl
    | completed hl => exact hl
    | sent hn hf r g b he => subst he; cases hi
  exact ⟨hs, hh, (exec_completes hi hs h hh).1⟩

/-- Done twice, a host operation differs from once in `pc` alone, if it does so where both times it runs in a live state:
otherwise a mark stands after the first time, and the second does nothing. -/
theorem exec_twice_of_live {i : Instr} {s t u : State} (hi : i.hostIssued = true) (h : exec i s = .next t)
    (h' : exec i t = .next u) (hl : s.Live → t.Live → u = { t with pc := u.pc }) : u = { t with pc := u.pc } := by
  cases hh : t.halted
  · obtain ⟨hs, ht⟩ := exec_live hi h hh
    exact hl hs ht
  · rw [exec_of_halted hh h']

/-- An operation that updates a live state by `f` and completes with no result differs, done twice, from once in `pc`
alone, if `f` leaves as it is the state it left, completed. -/
theorem exec_twice_of_update {i : Instr} {f : State → State} {s t u : State} (hs : s.Live) (ht : t.Live)
    (h : exec i s = .next t) (h' : exec i t = .next u)
    (hrun : ∀ v : State, v.Live → v.params = s.params → exec i v = .next ((f v).completeUnlessFaulted .nothing))
    (hfix : f ((f s).complete .nothing) = (f s).complete .nothing) : u = { t with pc := u.pc } := by
  have hft : t.fault = none := State.fault_of_not_halted ht.1
  have hts : t = (f s).completeUnlessFaulted .nothing := by
    rw [hrun s hs rfl] at h; cases h; rfl
  have htc : t = (f s).complete .nothing := by
    cases hff : (f s).fault with
    | none => rw [hts, completeUnlessFaulted_none hff]
    | some e =>
      rw [hts, completeUnlessFaulted_some (by rw [hff]; rfl), hff] at hft
      cases hft
  have hut : u = t.complete .nothing := by
    rw [hrun t ht (exec_params h), htc, hfix, ← htc, completeUnlessFaulted_none hft] at h'
    cases h'; rfl
  rw [hut, htc]; rfl

/-- A buffer operation that updates by `f` differs, done twice, from once in `pc` alone, if `f` leaves as it is the state it
left, completed. Without a buffer it raises NO_BUFFER the first time (R76). -/
theorem exec_twice_of_buffer_update {i : Instr} {o : Opcode} {f : State → State} {s t u : State}
    (hi : i.hostIssued = true) (h : exec i s = .next t) (h' : exec i t = .next u)
    (hrun : ∀ v : State, v.Live → exec i v = withBuffer o v fun v => (f v).completeUnlessFaulted .nothing)
    (hfix : s.Live → f ((f s).complete .nothing) = (f s).complete .nothing) : u = { t with pc := u.pc } := by
  refine exec_twice_of_live hi h h' fun hs ht => ?_
  cases ha : s.params.allocOk
  · rw [hrun s hs, withBuffer_absent ha] at h
    cases h
    cases ht.1
  · refine exec_twice_of_update hs ht h h' (fun v hv hp => ?_) (hfix hs)
    rw [hrun v hv, withBuffer_present (by rw [hp, ha])]

/-! ## The store operations in a live state -/

theorem exec_setch_live {s : State} (hl : s.Live) (idx val : Word) : exec (.setch idx val) s =
    withBuffer .setch s fun s => (setChannel .setch idx.toNat val s).completeUnlessFaulted .nothing := by
  rw [exec, execSetch, hostOp_live hl.1 hl.2]

theorem exec_setled_live {s : State} (hl : s.Live) (k r g b : Word) : exec (.setled k r g b) s =
    withBuffer .setled s fun s => (setLed .setled k r g b s).completeUnlessFaulted .nothing := by
  rw [exec, execSetled, hostOp_live hl.1 hl.2]

theorem exec_setbc_live {s : State} (hl : s.Live) (r g b : Byte) : exec (.setbc r g b) s =
    .next ((s.putBright (clampBright r) (clampBright g) (clampBright b)).completeUnlessFaulted .nothing) := by
  rw [exec, execSetbc, hostOp_live hl.1 hl.2, completeUnlessFaulted_none]
  exact State.fault_of_not_halted hl.1

/-- SETBCU is SETBC with one operand for all three registers (R89). -/
theorem exec_setbcu_eq_setbc (x : Byte) (s : State) : exec (.setbcu x) s = exec (.setbc x x x) s := rfl

/-- SETBC done twice differs from once in `pc` alone. -/
theorem exec_setbc_twice {s t u : State} {r g b : Byte} (h : exec (.setbc r g b) s = .next t)
    (h' : exec (.setbc r g b) t = .next u) : u = { t with pc := u.pc } :=
  exec_twice_of_live rfl h h' fun hs ht => exec_twice_of_update hs ht h h' (fun _ hv _ => exec_setbc_live hv r g b) rfl

/-- Settles O25: each store operation is an update that finds its own effect in place. -/
theorem storeOperationsAreIdempotent : Obligations.StoreOperationsAreIdempotent := by
  intro s t u i hw hi h h'
  rcases hi with ⟨idx, val, rfl⟩ | ⟨k, r, g, b, rfl⟩ | ⟨r, g, b, rfl⟩ | ⟨x, rfl⟩
  · exact exec_twice_of_buffer_update rfl h h' (fun v hv => exec_setch_live hv idx val) fun hs =>
      setChannel_complete_setChannel (State.fault_of_not_halted hs.1) hw .setch idx.toNat val .nothing
  · exact exec_twice_of_buffer_update rfl h h' (fun v hv => exec_setled_live hv k r g b) fun hs =>
      setLed_complete_setLed (State.fault_of_not_halted hs.1) hw .setled k r g b .nothing
  · exact exec_setbc_twice h h'
  · rw [exec_setbcu_eq_setbc] at h h'
    exact exec_setbc_twice h h'

end Sys2Proof.Machine

/-! PROOFS. The family of `30_encoding.md`: decoding and encoding agree both ways, what the decoder refuses, the command
word's layout, the assembler's lines, and the chain stream with what an observer reads from it. -/

namespace Sys2Proof.Machine

/-! ## The decoder (R58, R59, R71) -/

/-- Opcode bytes and opcodes name each other (R59). -/
theorem decodeOpcode_eq_some_iff {b : Byte} {o : Opcode} : decodeOpcode b = some o ↔ b = o.byte := by
  constructor
  · intro h
    unfold decodeOpcode at h
    split_ifs at h <;> cases h <;> assumption
  · rintro rfl
    cases o <;> rfl

/-- After an opcode byte the decoder reads that opcode's operands. -/
@[simp] theorem decode_opcodeByte_cons (o : Opcode) (bs : List Byte) : decode (o.byte :: bs) = decodeOperands o bs := by
  rw [decode, decodeOpcode_eq_some_iff.2 rfl]

/-- Operands read by the decoder are the encoder's bytes after the opcode byte. -/
theorem encode_of_decodeOperands {o : Opcode} {bs rest : List Byte} {i : Instr}
    (h : decodeOperands o bs = .op i rest) : o.byte :: bs = encode i ++ rest := by
  cases o
  case begin | write => cases h; rfl
  all_goals
    simp only [decodeOperands] at h
    split at h
    · cases h
      simp [encode, encodeWord]
    · cases h

/-- Fewer operand bytes than the opcode's length asks for are refused (R71). -/
theorem decodeOperands_of_short {o : Opcode} {bs : List Byte} (h : bs.length + 1 < o.length) :
    decodeOperands o bs = .refuse .truncated := by
  cases o
  case begin | write => simp [Opcode.length] at h
  all_goals
    simp only [decodeOperands]
    split
    · simp only [List.length_cons, Opcode.length] at h
      omega
    · rfl

/-- Every instruction's encoding has the length and the first byte its opcode fixes. -/
theorem encodedLength_statement (i : Instr) : Laws.EncodedLength.Statement i :=
  match i with
  | .begin => Laws.EncodedLength.begin
  | .setch idx val => Laws.EncodedLength.setch idx val
  | .getch idx => Laws.EncodedLength.getch idx
  | .setled k r g b => Laws.EncodedLength.setled k r g b
  | .getled k => Laws.EncodedLength.getled k
  | .setbc r g b => Laws.EncodedLength.setbc r g b
  | .setbcu x => Laws.EncodedLength.setbcu x
  | .write => Laws.EncodedLength.write
  | .wrcmd r g b => Laws.EncodedLength.wrcmd r g b

/-- A host operation is its opcode byte and as many operand bytes as the opcode's length leaves (R58, R59, R71). -/
theorem encode_eq_opcodeByte_cons {i : Instr} (hi : i.hostIssued = true) :
    ∃ o bs, encode i = Opcode.byte o :: bs ∧ bs.length + 1 = i.length ∧ o.length = i.length := by
  obtain ⟨hlen, hop⟩ := encodedLength_statement i
  cases ho : i.opcode with
  | none => simp [ho, hi] at hop
  | some o =>
    simp only [ho] at hop
    obtain ⟨hol, hhead, -⟩ := hop
    obtain ⟨bs, he⟩ := List.head?_eq_some_iff.1 hhead
    exact ⟨o, bs, he, by rw [← hlen, he, List.length_cons], hol⟩

/-- The host decoder reads back every encoded host operation, whatever bytes follow (R58, R59, R71). -/
theorem decode_encode_append {i : Instr} (hi : i.hostIssued = true) (rest : List Byte) :
    decode (encode i ++ rest) = .op i rest := by
  cases i with
  | wrcmd r g b => cases hi
  | _ => simp [encode, encodeWord, decodeOperands]

/-- The wire decoder reads back every encoded command word (R60, R74). -/
theorem decodeWire_encode_wrcmd_append (r g b : Bright) (rest : List Byte) :
    decodeWire (encode (.wrcmd r g b) ++ rest) = some (.wrcmd r g b, rest) := by
  simp [encode, cmdBytes, decodeWire, decodeCmd, beCmd_bytes, cmdFields_buildCmd]

/-- Settles O1, by the decoders on each instruction's encoding. -/
theorem encodedInstructionDecodes : Obligations.EncodedInstructionDecodes := fun rest =>
  ⟨fun _ hi => decode_encode_append hi rest, fun r g b => decodeWire_encode_wrcmd_append r g b rest⟩

/-- Settles O2: the first byte is the opcode's, and the operand bytes are the operands'. -/
theorem decodedBytesAreTheEncoding : Obligations.DecodedBytesAreTheEncoding := by
  intro bs rest i h
  refine ⟨?_, (decode_op h).1⟩
  cases bs with
  | nil => cases h
  | cons b bs =>
    cases ho : decodeOpcode b with
    | none => simp [decode, ho] at h
    | some o =>
      obtain rfl := decodeOpcode_eq_some_iff.1 ho
      exact encode_of_decodeOperands (by rwa [decode_opcodeByte_cons] at h)

/-- Every host operation's encoding has at least one byte, so fuel for the bytes is fuel for the operations. -/
theorem decodeSteps_encodeProgram {is : List Instr} (his : ∀ i ∈ is, i.hostIssued = true) {fuel : Nat}
    (hf : (encodeProgram is).length ≤ fuel) : decodeSteps fuel (encodeProgram is) = (is, none) := by
  induction is generalizing fuel with
  | nil => cases fuel <;> rfl
  | cons i is ih =>
    have hi : i.hostIssued = true := his i List.mem_cons_self
    obtain ⟨o, bs, he, -, -⟩ := encode_eq_opcodeByte_cons hi
    have hp : encodeProgram (i :: is) = encode i ++ encodeProgram is := List.flatMap_cons
    have hlen : (encodeProgram is).length + 1 ≤ fuel := by
      rw [hp, he] at hf
      simp only [List.length_append, List.length_cons] at hf
      omega
    obtain ⟨fuel, rfl⟩ : ∃ k, fuel = k + 1 := ⟨fuel - 1, by omega⟩
    rw [hp, decodeSteps, decode_encode_append hi]
    simp only [ih (fun j hj => his j (List.mem_cons_of_mem i hj)) (Nat.le_of_succ_le_succ hlen)]

/-- Settles O3: the byte count is fuel enough. -/
theorem encodedProgramDecodes : Obligations.EncodedProgramDecodes := fun _ his =>
  decodeSteps_encodeProgram his le_rfl

/-- Settles O4: each word is the encoding of its instruction. -/
theorem sampleWordsDecode : Obligations.SampleWordsDecode :=
  ⟨decode_encode_append (i := .setled 0x0001#16 0x1111#16 0x2222#16 0x3333#16) rfl [],
    decode_encode_append (i := .setbc 10#8 200#8 30#8) rfl [], decode_encode_append (i := .begin) rfl [],
    decode_encode_append (i := .write) rfl [], decodeWire_encode_wrcmd_append 1#7 2#7 3#7 []⟩

/-! ## What the decoder refuses (R68, R71, R136) -/

/-- Where a live state's next bytes have no meaning, the step sets the mark and changes nothing else. -/
theorem step_of_decode_refuse {s : State} {r : RefReason} (hl : s.Live) (hd : decode s.input = .refuse r) :
    step s = .next (s.refuse r) := by
  obtain ⟨hh, hb⟩ := hl
  simp [step, nextAction, hh, State.position_of_not_busy hb, hd]

/-- A byte that is no opcode's is refused, whatever follows (R68). -/
theorem decode_of_unassigned {b : Byte} (hb : ∀ o : Opcode, b ≠ o.byte) (bs : List Byte) :
    decode (b :: bs) = .refuse .opcode := by
  have ho : decodeOpcode b = none :=
    Option.eq_none_iff_forall_ne_some.2 fun o h => hb o (decodeOpcode_eq_some_iff.1 h)
  rw [decode, ho]

/-- A host operation cut short is refused: its opcode byte stands, and operand bytes are missing (R71). -/
theorem decode_take_encode {i : Instr} (hi : i.hostIssued = true) {n : Nat} (h0 : 0 < n) (hn : n < i.length) :
    decode ((encode i).take n) = .refuse .truncated := by
  obtain ⟨o, bs, he, hbs, ho⟩ := encode_eq_opcodeByte_cons hi
  obtain ⟨n, rfl⟩ : ∃ k, n = k + 1 := ⟨n - 1, by omega⟩
  rw [he, List.take_succ_cons, decode_opcodeByte_cons, decodeOperands_of_short]
  rw [List.length_take]
  omega

/-- Settles O5: an unassigned byte is no opcode's. -/
theorem unassignedOpcodeIsRefused : Obligations.UnassignedOpcodeIsRefused := by
  intro b rest hb
  have hd : decode (b :: rest) = .refuse .opcode := by
    refine decode_of_unassigned (fun o ho => hb ?_) rest
    rw [ho]
    cases o <;> decide
  exact ⟨hd, fun s hl hs => step_of_decode_refuse hl (by rw [hs, hd])⟩

/-- Settles O6: the decoder's refusal of a cut operation, and the step that makes it. -/
theorem truncatedOperationIsRefused : Obligations.TruncatedOperationIsRefused := by
  intro i n hi h0 hn
  have hd := decode_take_encode hi h0 hn
  exact ⟨hd, fun s hl hs => step_of_decode_refuse hl (by rw [hs, hd])⟩

/-! ## The command word (R60, R61, R96) -/

/-- From bit 21 up the command word is the constant 0x4B6, whatever the brightness. -/
theorem buildCmd_extract_above (r g b : Bright) (k len : Nat) :
    (buildCmd r g b).extractLsb' (21 + k) len = (0x4B6#11).extractLsb' k len := by
  rw [buildCmd_eq_append, BitVec.extractLsb'_append_eq_of_le (by omega), BitVec.extractLsb'_append_eq_of_le (by omega),
    BitVec.extractLsb'_append_eq_of_le (by omega)]
  rw [show 21 + k - 7 - 7 - 7 = k by omega]
  rfl

theorem buildCmd_getLsbD_above (r g b : Bright) (k : Nat) :
    (buildCmd r g b).getLsbD (21 + k) = (0x4B6#11).getLsbD k := by
  have h := congrArg (·.getLsbD 0) (buildCmd_extract_above r g b k 1)
  simpa using h

/-- The brightness fields of the command word (R60). -/
theorem buildCmd_fields (r g b : Bright) :
    (buildCmd r g b).extractLsb' 14 7 = r ∧ (buildCmd r g b).extractLsb' 7 7 = g ∧
      (buildCmd r g b).extractLsb' 0 7 = b := by
  have h := cmdFields_buildCmd r g b
  unfold cmdFields at h
  split at h
  · simpa using h
  · cases h

/-- A word's number as the shift procedure builds it (R61). -/
theorem buildCmd_toNat (r g b : Bright) : (buildCmd r g b).toNat =
    (((((((0x25 <<< 5) ||| 0x16) <<< 7) ||| r.toNat) <<< 7) ||| g.toNat) <<< 7) ||| b.toNat := by
  rw [buildCmd_eq_append]
  simp only [BitVec.toNat_append]
  rfl

/-- The shift procedure's value is the closed form's: each field is shifted once by the widths below it (R96). -/
theorem shiftProcedure_eq_closedForm (m f r g b : Nat) :
    (((((((m <<< 5) ||| f) <<< 7) ||| r) <<< 7) ||| g) <<< 7) ||| b =
      (m <<< 26) ||| (f <<< 21) ||| (r <<< 14) ||| (g <<< 7) ||| b := by
  simp only [Nat.shiftLeft_or_distrib, ← Nat.shiftLeft_add]

/-- Settles O7: the bits above 21 are constant, the fields read back, and the closed forms are the shift procedure's. -/
theorem commandWordLayout : Obligations.CommandWordLayout := by
  intro r g b
  obtain ⟨hr, hg, hb⟩ := buildCmd_fields r g b
  have hclosed := (buildCmd_toNat r g b).trans (shiftProcedure_eq_closedForm _ _ _ _ _)
  exact ⟨buildCmd_extract_above r g b 5 6, buildCmd_getLsbD_above r g b 4,
    buildCmd_getLsbD_above r g b 3, buildCmd_getLsbD_above r g b 2,
    buildCmd_getLsbD_above r g b 1, buildCmd_getLsbD_above r g b 0,
    hr, hg, hb, buildCmd_extract_above r g b 0 11, buildCmd_extract_above r g b 3 8,
    buildCmd_toNat r g b, hclosed, hclosed⟩

/-- The command word's first byte, 96, is no opcode's (R68, R69). -/
theorem decode_encode_wrcmd (r g b : Bright) : decode (encode (.wrcmd r g b)) = .refuse .opcode := by
  rw [encode, cmdBytes, buildCmd_extract_above r g b 3 8]
  exact decode_of_unassigned (fun o => by cases o <;> decide) _

/-- Settles O37: outside a frame's head the instruction is refused as its bytes are. -/
theorem wrcmdOutsideFrameIsRefused : Obligations.WrcmdOutsideFrameIsRefused := by
  intro s r g b hh hf
  exact ⟨by simp [exec, execWrcmd, hh, hf, State.refuse], decode_encode_wrcmd r g b⟩

/-! ## Assembler lines (R72) -/

/-- Where the literals are as many as the fields, a line is well-formed exactly when each literal fits its field. -/
theorem asmLine_wf_iff {l : AsmLine} (hl : l.operands.length = l.mnemonic.operandMax.length) :
    l.wf = true ↔ ∀ ov ∈ l.operands.zip l.mnemonic.operandMax, ov.1 ≤ ov.2 := by
  simp only [AsmLine.wf, hl, decide_true, Bool.true_and, List.all_eq_true, decide_eq_true_eq]

/-- A line whose operation is read is that operation, or an error where some literal does not fit. -/
theorem assembleParsed_of_instrOf {l : AsmLine} {i : Instr} (h : instrOf l.mnemonic l.operands = some i) :
    assembleParsed l = if l.wf then .ok i else .error .operandTooLarge := by
  rw [assembleParsed, h]

/-- As many literals as the mnemonic has fields make an operation. -/
theorem instrOf_of_length {o : Opcode} {vs : List Nat} (hl : vs.length = o.operandMax.length) :
    ∃ i, instrOf o vs = some i := by
  cases o
  case begin | write =>
    obtain rfl := List.length_eq_zero_iff.1 hl
    exact ⟨_, rfl⟩
  case getch | getled | setbcu =>
    obtain ⟨v, rfl⟩ := List.length_eq_one_iff.1 hl
    exact ⟨_, rfl⟩
  case setch =>
    obtain ⟨i, v, rfl⟩ := List.length_eq_two.1 hl
    exact ⟨_, rfl⟩
  case setbc =>
    obtain ⟨r, g, b, rfl⟩ := List.length_eq_three.1 hl
    exact ⟨_, rfl⟩
  case setled =>
    obtain ⟨k, vs, rfl⟩ := List.exists_cons_of_length_eq_add_one hl
    obtain ⟨r, g, b, rfl⟩ := List.length_eq_three.1 (Nat.succ.inj hl)
    exact ⟨_, rfl⟩

/-- An operation made of literals has their mnemonic, and their values where each fits its field. -/
theorem instrOf_reads {o : Opcode} {vs : List Nat} {i : Instr} (h : instrOf o vs = some i) :
    i.opcode = some o ∧ ((∀ ov ∈ vs.zip o.operandMax, ov.1 ≤ ov.2) → i.operandValues = vs) := by
  unfold instrOf at h
  split at h
  all_goals cases h
  case h_1 | h_8 => exact ⟨rfl, fun _ => rfl⟩
  all_goals
    refine ⟨rfl, fun hfit => ?_⟩
    simpa [Opcode.operandMax, Instr.operandValues, Nat.lt_succ_iff] using hfit

/-- Settles O9: the literals make an operation, and whether each fits its field decides whether it is the answer. -/
theorem operandLiteralMustFit : Obligations.OperandLiteralMustFit := by
  intro o vs hl
  obtain ⟨i, hi⟩ := instrOf_of_length hl
  obtain ⟨ho, hv⟩ := instrOf_reads hi
  have hwf := asmLine_wf_iff (l := { mnemonic := o, operands := vs }) hl
  rw [assembleParsed_of_instrOf hi]
  constructor
  · rintro ⟨ov, hov, hlt⟩
    rw [if_neg fun h => absurd (hwf.1 h ov hov) (Nat.not_le.2 hlt)]
  · intro hfit
    exact ⟨i, if_pos (hwf.2 hfit), ho, hv hfit⟩

/-- An operation's own operand values make the operation again. -/
theorem instrOf_operandValues {i : Instr} {o : Opcode} (ho : i.opcode = some o) :
    instrOf o i.operandValues = some i := by
  cases i <;> cases ho <;> simp [Instr.operandValues, instrOf]

/-- An operation's own operand values fit their fields. -/
theorem operandValues_wf {i : Instr} {o : Opcode} (ho : i.opcode = some o) :
    AsmLine.wf { mnemonic := o, operands := i.operandValues } = true := by
  have hword : ∀ v : Word, v.toNat ≤ 65535 := fun v => Nat.le_of_lt_succ v.isLt
  have hbyte : ∀ v : Byte, v.toNat ≤ 255 := fun v => Nat.le_of_lt_succ v.isLt
  cases i <;> cases ho <;> simp [Instr.operandValues, AsmLine.wf, Opcode.operandMax, hword, hbyte]

/-- An operation's own operand values assemble to it. -/
theorem assembleParsed_operandValues {i : Instr} {o : Opcode} (ho : i.opcode = some o) :
    assembleParsed { mnemonic := o, operands := i.operandValues } = .ok i := by
  rw [assembleParsed_of_instrOf (instrOf_operandValues ho), if_pos (operandValues_wf ho)]

/-- A u16 operand as the assembler text writes it, with the value it is read at. -/
def wordOperand (v : Word) : List Char × Nat := (wordLiteral v, v.toNat)

/-- A u8 operand as the assembler text writes it, with the value it is read at. -/
def byteOperand (v : Byte) : List Char × Nat := (byteLiteral v, v.toNat)

/-- A written operand: its literal has a token's characters and is read at its value. -/
def ReadsBack (m : List Char × Nat) : Prop := parseLiteral m.1 = some m.2 ∧ ∀ c ∈ m.1, isToken c = true

theorem wordOperand_readsBack (v : Word) : ReadsBack (wordOperand v) := ⟨parseLiteral_word v, wordLiteral_tokens v⟩

theorem byteOperand_readsBack (v : Byte) : ReadsBack (byteOperand v) := ⟨parseLiteral_byte v, byteLiteral_tokens v⟩

/-- A line of at least one written operand assembles to the operation with the operands' values. -/
theorem assembleLine_operands {i : Instr} {o : Opcode} {m : List Char × Nat} {ms : List (List Char × Nat)}
    (ho : i.opcode = some o) (hm : ∀ l ∈ m :: ms, ReadsBack l) (hv : (m :: ms).map Prod.snd = i.operandValues) :
    assembleLine (lineOf o ((m :: ms).map Prod.fst)) = .ok (some i) := by
  rw [assembleLine_lineOf o m ms hm, hv, assembleParsed_operandValues ho]

/-- Settles O8: a line without operands is its mnemonic, and any other is written operands read back. -/
theorem assembledLineIsTheOperation : Obligations.AssembledLineIsTheOperation := by
  intro i text h
  cases i <;> cases h
  case begin | write => decide
  case setch idx val =>
    exact assembleLine_operands (m := wordOperand idx) (ms := [wordOperand val]) rfl
      (by simp [wordOperand_readsBack]) rfl
  case getch v | getled v =>
    exact assembleLine_operands (m := wordOperand v) (ms := []) rfl (by simp [wordOperand_readsBack]) rfl
  case setled k r g b =>
    exact assembleLine_operands (m := wordOperand k) (ms := [wordOperand r, wordOperand g, wordOperand b]) rfl
      (by simp [wordOperand_readsBack]) rfl
  case setbc r g b =>
    exact assembleLine_operands (m := byteOperand r) (ms := [byteOperand g, byteOperand b]) rfl
      (by simp [byteOperand_readsBack]) rfl
  case setbcu x =>
    exact assembleLine_operands (m := byteOperand x) (ms := []) rfl (by simp [byteOperand_readsBack]) rfl

/-! ## The chain stream (R63, R64) -/

/-- Stream byte `28n + b` is the serializer's byte `b` of device `n` (R63, R64). -/
theorem chainStream_getElem?_frameByte (s : State) {n b : Nat} (hn : n < s.params.chainLength) (hb : b < 28) :
    (chainStream s)[28 * n + b]? = some (frameByte s n b) := by
  rw [chainStream_getElem? s hn hb, deviceFrame_getElem? s s n b hb rfl rfl rfl rfl]

/-- Bytes 0 to 3 of a frame are the command word's. -/
theorem frameByte_command (s : State) (n : Nat) {b : Nat} (hb : b < 4) :
    frameByte s n b = (buildCmd s.bcR s.bcG s.bcB).extractLsb' (24 - 8 * b) 8 := if_pos hb

/-- Byte `4 + 2j` of a frame is the high byte of channel `11 - j`. -/
theorem frameByte_hi (s : State) (n j : Nat) :
    frameByte s n (4 + 2 * j) = hiByte (s.channel (deviceChannel n (11 - j))) := by
  have h : (4 + 2 * j - 4) / 2 = j := by omega
  simp only [frameByte, h]
  rw [if_neg (by omega), if_pos (by omega)]

/-- Byte `5 + 2j` of a frame is the low byte of channel `11 - j`. -/
theorem frameByte_lo (s : State) (n j : Nat) :
    frameByte s n (5 + 2 * j) = loByte (s.channel (deviceChannel n (11 - j))) := by
  have h : (5 + 2 * j - 4) / 2 = j := by omega
  simp only [frameByte, h]
  rw [if_neg (by omega), if_neg (by omega)]

/-- Settles O30: the stream's bytes are the frames' bytes, and each frame's are the command word's and the channels'. -/
theorem chainStreamByteTable : Obligations.ChainStreamByteTable := by
  intro s
  refine ⟨chainStream_length s, fun n hn => ⟨fun b hb => ?_, fun j hj => ⟨?_, ?_⟩⟩⟩
  · rw [chainStream_getElem?_frameByte s hn (by omega), frameByte_command s n hb]
  · rw [Nat.add_assoc, chainStream_getElem?_frameByte s hn (by omega), frameByte_hi]
    rfl
  · rw [Nat.add_assoc, chainStream_getElem?_frameByte s hn (by omega), frameByte_lo]
    rfl

/-! ## What an observer of the stream reads (R74) -/

/-- Encoded u16 values read back in their order. -/
theorem wordPairs_flatMap_encodeWord {α : Type} (f : α → Word) (cs : List α) :
    wordPairs (cs.flatMap fun c => encodeWord (f c)) = cs.map f := by
  induction cs with
  | nil => rfl
  | cons c cs ih =>
    rw [List.flatMap_cons, List.map_cons, ← ih]
    simp [encodeWord, wordPairs]

/-- A device's frame decodes to the values the block holds for the device. -/
theorem decodeFrame_deviceFrame (s : State) (n : Nat) : decodeFrame (deviceFrame s n) = some (deviceValues s n) := by
  have horder : (channelOrder.map fun c => s.channel (deviceChannel n c)).reverse = (deviceValues s n).channels := by
    rw [← List.map_reverse]
    rfl
  have hlen : (channelOrder.flatMap fun c => encodeWord (s.channel (deviceChannel n c))).length = 24 := rfl
  simp only [deviceFrame, cmdBytes, List.cons_append, List.nil_append, decodeFrame, hlen, if_true, beCmd_bytes,
    cmdFields_buildCmd, wordPairs_flatMap_encodeWord, horder]
  rfl

/-- Frames put end to end decode one by one. -/
theorem decodeStream_flatMap_deviceFrame (s : State) (ns : List Nat) :
    decodeStream ns.length (ns.flatMap (deviceFrame s)) = some (ns.map (deviceValues s)) := by
  induction ns with
  | nil => rfl
  | cons n ns ih =>
    rw [List.flatMap_cons, List.length_cons, decodeStream, List.take_left' (deviceFrame_length s n),
      List.drop_left' (deviceFrame_length s n), decodeFrame_deviceFrame, ih]
    rfl

/-- Settles O34: the chain stream is the frames of devices 0 to N - 1 put end to end. -/
theorem observerRecoversStore : Obligations.ObserverRecoversStore := by
  intro s
  have h := decodeStream_flatMap_deviceFrame s (List.range s.params.chainLength)
  rw [List.length_range] at h
  exact h

end Sys2Proof.Machine

/-! PROOFS. The family of `40_channel_store.md`: what SETCH, GETCH, SETLED, GETLED, SETBC and SETBCU do in each case, the
set-get laws, SETLED as three SETCH, and that the store operations do not read the readiness. -/

namespace Sys2Proof.Machine

/-! ## One LED's channels (R81, R82) -/

/-- At or beyond LED `4N` the blue channel lies at or beyond `C` (R84). -/
theorem ledChannel_blue_not_below {p : Params} {k : Word} (h : 4 * p.chainLength ≤ k.toNat) :
    ¬ ledChannel k 2 < channelCount p := by
  simp only [ledChannel, channelCount]; omega

/-- The three writes of one LED: red, then green, then blue (R82). -/
def State.putLed (k r g b : Word) (s : State) : State :=
  ((s.putChannel (ledChannel k 0) r).putChannel (ledChannel k 1) g).putChannel (ledChannel k 2) b

/-- Below LED `4N` the three set_channel steps are the LED's three writes (R82). -/
theorem setLed_eq_putLed {s : State} (hf : s.fault = none) {k : Word} (hk : k.toNat < 4 * s.params.chainLength)
    (o : Opcode) (r g b : Word) : setLed o k r g b s = s.putLed k r g b :=
  setLed_below hf hk o r g b

/-- The LED's three channels hold the three values: no write touches another one's channel (R82). -/
theorem channel_putLed {s : State} (hw : s.pwm.wf = true) (k r g b : Word) :
    (s.putLed k r g b).channel (ledChannel k 0) = r ∧ (s.putLed k r g b).channel (ledChannel k 1) = g ∧
      (s.putLed k r g b).channel (ledChannel k 2) = b := by
  have h01 : ledChannel k 0 ≠ ledChannel k 1 := by simp [ledChannel]
  have h02 : ledChannel k 0 ≠ ledChannel k 2 := by simp [ledChannel]
  have h12 : ledChannel k 1 ≠ ledChannel k 2 := by simp [ledChannel]
  have hw₁ : (s.putChannel (ledChannel k 0) r).pwm.wf = true := Memory.wf_write hw _ r
  refine ⟨?_, ?_, channel_putChannel_same (Memory.wf_write hw₁ _ g) _ b⟩
  · rw [State.putLed, channel_putChannel_ne _ _ b h02, channel_putChannel_ne _ _ g h01, channel_putChannel_same hw]
  · rw [State.putLed, channel_putChannel_ne _ _ b h12, channel_putChannel_same hw₁]

/-- Every channel outside the LED's three is unchanged (R82). -/
theorem channel_putLed_outside (s : State) (k r g b : Word) {a : Nat} (ha : a < 3 * k.toNat ∨ 3 * k.toNat + 2 < a) :
    (s.putLed k r g b).channel a = s.channel a := by
  have hne : ∀ c < 3, a ≠ ledChannel k c := fun c hc => by simp only [ledChannel]; omega
  rw [State.putLed, channel_putChannel_ne _ _ b (hne 2 (by decide)), channel_putChannel_ne _ _ g (hne 1 (by decide)),
    channel_putChannel_ne _ _ r (hne 0 (by decide))]

/-! ## A live state stays live where no mark is set (R131, R136) -/

theorem State.Live.putChannel {s : State} (hl : s.Live) (i : Nat) (v : Word) : (s.putChannel i v).Live := hl

theorem State.Live.putLed {s : State} (hl : s.Live) (k r g b : Word) : (s.putLed k r g b).Live := hl

theorem State.Live.complete {s : State} (hl : s.Live) (r : Result) : (s.complete r).Live := hl

/-! ## What each buffer operation answers in a live state -/

theorem exec_getch_live {s : State} (hl : s.Live) (idx : Word) : exec (.getch idx) s =
    withBuffer .getch s fun s =>
      if idx.toNat < channelCount s.params then s.complete (.word (s.channel idx.toNat))
      else s.raise (.rdRange .getch idx) := by
  rw [exec, execGetch, hostOp_live hl.1 hl.2]

theorem exec_getled_live {s : State} (hl : s.Live) (k : Word) : exec (.getled k) s =
    withBuffer .getled s fun s =>
      if ledChannel k 2 < channelCount s.params then
        s.complete (.triple (s.channel (ledChannel k 0)) (s.channel (ledChannel k 1)) (s.channel (ledChannel k 2)))
      else s.raise (.rdRange .getled k) := by
  rw [exec, execGetled, hostOp_live hl.1 hl.2]

section WithBuffer

variable {s : State} (hl : s.Live) (ha : s.params.allocOk = true)

include hl ha

/-- SETCH below `C` writes the element (R78). -/
theorem exec_setch_below {idx : Word} (hi : idx.toNat < channelCount s.params) (val : Word) :
    exec (.setch idx val) s = .next ((s.putChannel idx.toNat val).complete .nothing) := by
  have hf := State.fault_of_not_halted hl.1
  rw [exec_setch_live hl, withBuffer_present ha, setChannel_below hf hi,
    completeUnlessFaulted_none (s := s.putChannel _ _) hf]

/-- SETCH at `C` faults (R78). -/
theorem exec_setch_at {idx : Word} (hi : idx.toNat = channelCount s.params) (val : Word) :
    exec (.setch idx val) s = .next (s.raise (.chOverrun .setch (channelCount s.params))) := by
  rw [exec_setch_live hl, withBuffer_present ha, setChannel_at (State.fault_of_not_halted hl.1) hi,
    completeUnlessFaulted_some rfl, hi]

/-- SETCH beyond `C` completes with no effect (R78). -/
theorem exec_setch_beyond {idx : Word} (hi : channelCount s.params < idx.toNat) (val : Word) :
    exec (.setch idx val) s = .next (s.complete .nothing) := by
  have hf := State.fault_of_not_halted hl.1
  rw [exec_setch_live hl, withBuffer_present ha, setChannel_beyond hf hi, completeUnlessFaulted_none hf]

/-- GETCH below `C` returns the element (R80). -/
theorem exec_getch_below {idx : Word} (hi : idx.toNat < channelCount s.params) :
    exec (.getch idx) s = .next (s.complete (.word (s.channel idx.toNat))) := by
  rw [exec_getch_live hl, withBuffer_present ha, if_pos hi]

/-- GETCH at or beyond `C` faults (R80). -/
theorem exec_getch_out_of_range {idx : Word} (hi : channelCount s.params ≤ idx.toNat) :
    exec (.getch idx) s = .next (s.raise (.rdRange .getch idx)) := by
  rw [exec_getch_live hl, withBuffer_present ha, if_neg hi.not_gt]

/-- SETLED below LED `4N` writes the LED's three elements (R82). -/
theorem exec_setled_below {k : Word} (hk : k.toNat < 4 * s.params.chainLength) (r g b : Word) :
    exec (.setled k r g b) s = .next ((s.putLed k r g b).complete .nothing) := by
  have hf := State.fault_of_not_halted hl.1
  rw [exec_setled_live hl, withBuffer_present ha, setLed_eq_putLed hf hk,
    completeUnlessFaulted_none (s := s.putLed k r g b) hf]

/-- SETLED at LED `4N` faults with nothing written (R81, R82). -/
theorem exec_setled_at {k : Word} (hk : k.toNat = 4 * s.params.chainLength) (r g b : Word) :
    exec (.setled k r g b) s = .next (s.raise (.chOverrun .setled (channelCount s.params))) := by
  rw [exec_setled_live hl, withBuffer_present ha, setLed_at (State.fault_of_not_halted hl.1) hk,
    completeUnlessFaulted_some rfl]

/-- SETLED beyond LED `4N` completes with no effect (R81, R82). -/
theorem exec_setled_beyond {k : Word} (hk : 4 * s.params.chainLength < k.toNat) (r g b : Word) :
    exec (.setled k r g b) s = .next (s.complete .nothing) := by
  have hf := State.fault_of_not_halted hl.1
  rw [exec_setled_live hl, withBuffer_present ha, setLed_beyond hf hk, completeUnlessFaulted_none hf]

/-- GETLED below LED `4N` returns the three elements (R84). -/
theorem exec_getled_below {k : Word} (hk : k.toNat < 4 * s.params.chainLength) :
    exec (.getled k) s = .next (s.complete
      (.triple (s.channel (ledChannel k 0)) (s.channel (ledChannel k 1)) (s.channel (ledChannel k 2)))) := by
  rw [exec_getled_live hl, withBuffer_present ha, if_pos (ledChannel_below hk (by decide))]

/-- GETLED at or beyond LED `4N` faults (R84). -/
theorem exec_getled_out_of_range {k : Word} (hk : 4 * s.params.chainLength ≤ k.toNat) :
    exec (.getled k) s = .next (s.raise (.rdRange .getled k)) := by
  rw [exec_getled_live hl, withBuffer_present ha, if_neg (ledChannel_blue_not_below hk)]

end WithBuffer

/-! ## Set and get -/

/-- Settles O16, by where the index lies. -/
theorem setchWritesOneChannel : Obligations.SetchWritesOneChannel := by
  intro s idx val hl hw
  refine ⟨rfl, fun ha hi => ?below, fun ha hi => exec_setch_at hl ha hi val, fun ha hi => exec_setch_beyond hl ha hi val,
    fun ha => ?absent⟩
  case below =>
    exact ⟨_, exec_setch_below hl ha hi val, channel_putChannel_same hw _ val,
      fun a hne => channel_putChannel_ne s _ val hne, rfl, rfl, rfl⟩
  case absent => exact (exec_setch_live hl idx val).trans (withBuffer_absent ha _ _)

/-- Settles O17, by where the index lies. -/
theorem getchReadsOneChannel : Obligations.GetchReadsOneChannel := fun _ idx hl =>
  ⟨rfl, fun ha hi => exec_getch_below hl ha hi, fun ha hi => exec_getch_out_of_range hl ha hi,
    fun ha => (exec_getch_live hl idx).trans (withBuffer_absent ha _ _)⟩

/-- Settles O18: SETCH leaves a live state that holds the value. -/
theorem setchThenGetchReturnsValue : Obligations.SetchThenGetchReturnsValue := by
  intro s i v hl hw ha hi
  have hlive := (hl.putChannel i.toNat v).complete .nothing
  exact ⟨_, _, exec_setch_below hl ha hi v, exec_getch_below hlive ha hi,
    congrArg Result.word (channel_putChannel_same hw i.toNat v)⟩

/-- Settles O19, by where the LED lies. -/
theorem setledWritesThreeChannels : Obligations.SetledWritesThreeChannels := by
  intro s k r g b hl hw
  refine ⟨rfl, fun ha hk => ?below, fun ha hk => exec_setled_at hl ha hk r g b,
    fun ha hk => exec_setled_beyond hl ha hk r g b, fun ha => ?absent⟩
  case below =>
    obtain ⟨hr, hg, hb⟩ := channel_putLed hw k r g b
    exact ⟨_, exec_setled_below hl ha hk r g b, hr, hg, hb,
      fun _ hout => channel_putLed_outside s k r g b hout, rfl, rfl, rfl⟩
  case absent => exact (exec_setled_live hl k r g b).trans (withBuffer_absent ha _ _)

/-- Settles O20, by where the LED lies. -/
theorem getledReadsThreeChannels : Obligations.GetledReadsThreeChannels := fun _ k hl =>
  ⟨rfl, fun ha hk => exec_getled_below hl ha hk, fun ha hk => exec_getled_out_of_range hl ha hk,
    fun ha => (exec_getled_live hl k).trans (withBuffer_absent ha _ _)⟩

/-- Settles O21: SETLED leaves a live state that holds the three values. -/
theorem setledThenGetledReturnsValues : Obligations.SetledThenGetledReturnsValues := by
  intro s k r g b hl hw ha hk
  obtain ⟨hr, hg, hb⟩ := channel_putLed hw k r g b
  have hlive := (hl.putLed k r g b).complete .nothing
  exact ⟨_, _, exec_setled_below hl ha hk r g b, exec_getled_below hlive ha hk,
    congr (congr (congrArg Result.triple hr) hg) hb⟩

/-! ## SETLED is three SETCH (R83) -/

/-- An LED's channel index that SETCH can spell is the operand's value. -/
theorem ledChannel_spelled {k : Word} (hs : 3 * k.toNat + 2 ≤ 65535) {c : Nat} (hc : c < 3) :
    (BitVec.ofNat 16 (ledChannel k c)).toNat = ledChannel k c := by
  rw [BitVec.toNat_ofNat, Nat.mod_eq_of_lt]
  simp only [ledChannel]; omega

/-- SETCH of a channel of an LED below `4N` makes that one of the LED's three writes. -/
theorem exec_setch_led_below {s : State} (hl : s.Live) (ha : s.params.allocOk = true) {k : Word}
    (hs : 3 * k.toNat + 2 ≤ 65535) (hk : k.toNat < 4 * s.params.chainLength) {c : Nat} (hc : c < 3) (v : Word) :
    exec (.setch (BitVec.ofNat 16 (ledChannel k c)) v) s =
      .next ((s.putChannel (ledChannel k c) v).complete .nothing) := by
  have hi := ledChannel_spelled hs hc
  have hlt := ledChannel_below hk hc
  rw [exec_setch_below hl ha (by rwa [hi]), hi]

/-- SETCH of a channel of an LED beyond `4N` completes with no effect. -/
theorem exec_setch_led_beyond {s : State} (hl : s.Live) (ha : s.params.allocOk = true) {k : Word}
    (hs : 3 * k.toNat + 2 ≤ 65535) (hk : 4 * s.params.chainLength < k.toNat) {c : Nat} (hc : c < 3) (v : Word) :
    exec (.setch (BitVec.ofNat 16 (ledChannel k c)) v) s = .next (s.complete .nothing) := by
  have hlt := ledChannel_beyond hk c
  exact exec_setch_beyond hl ha (by rwa [ledChannel_spelled hs hc]) v

/-- Settles O22: the three SETCH make the LED's three writes, or none of them has an effect, or the first one faults. -/
theorem setledIsThreeSetch : Obligations.SetledIsThreeSetch := by
  intro s k r g b hl ha hs
  refine ⟨fun hne => ?_, fun hk => ?_⟩
  · rcases Nat.lt_or_gt_of_ne hne with hk | hk
    · have hl₁ := (hl.putChannel (ledChannel k 0) r).complete .nothing
      have hl₂ := (hl₁.putChannel (ledChannel k 1) g).complete .nothing
      exact ⟨_, _, _, _, exec_setled_below hl ha hk r g b, exec_setch_led_below (c := 0) hl ha hs hk (by decide) r,
        exec_setch_led_below (c := 1) hl₁ ha hs hk (by decide) g,
        exec_setch_led_below (c := 2) hl₂ ha hs hk (by decide) b, rfl⟩
    · have hl₁ := hl.complete .nothing
      have hl₂ := hl₁.complete .nothing
      exact ⟨_, _, _, _, exec_setled_beyond hl ha hk r g b, exec_setch_led_beyond (c := 0) hl ha hs hk (by decide) r,
        exec_setch_led_beyond (c := 1) hl₁ ha hs hk (by decide) g,
        exec_setch_led_beyond (c := 2) hl₂ ha hs hk (by decide) b, rfl⟩
  · have hi := (ledChannel_spelled hs (c := 0) (by decide)).trans (ledChannel_at hk)
    exact ⟨_, _, exec_setled_at hl ha hk r g b, exec_setch_at hl ha hi r, rfl, rfl, rfl, rfl⟩

/-! ## Brightness (R86, R88) -/

/-- SETBC completes with the three clamped operands (R86). -/
theorem exec_setbc_completes {s : State} (hl : s.Live) (r g b : Byte) : exec (.setbc r g b) s =
    .next ((s.putBright (clampBright r) (clampBright g) (clampBright b)).complete .nothing) := by
  rw [exec_setbc_live hl, completeUnlessFaulted_none]
  exact State.fault_of_not_halted hl.1

/-- The clamp, said by cases (R67). -/
theorem clampBright_toNat_ite (x : Byte) : (clampBright x).toNat = if 127 < x.toNat then 127 else x.toNat := by
  rw [clampBright_toNat]
  split <;> omega

/-- Settles O23: each register is the clamp of its own operand. -/
theorem setbcClampsEachOperand : Obligations.SetbcClampsEachOperand := fun _ r g b hl =>
  ⟨rfl, _, exec_setbc_completes hl r g b, clampBright_toNat_ite r, clampBright_toNat_ite g, clampBright_toNat_ite b,
    rfl, rfl, rfl⟩

/-- Settles O24: SETBCU is SETBC with one operand for all three registers. -/
theorem setbcuClampsOnceForAll : Obligations.SetbcuClampsOnceForAll := by
  intro s x hl
  have hset := exec_setbc_completes hl x x x
  exact ⟨rfl, _, (exec_setbcu_eq_setbc x s).trans hset, hset, clampBright_toNat x, clampBright_toNat x,
    clampBright_toNat x, rfl, rfl, rfl⟩

/-! ## The store operations do not read the readiness (R77) -/

/-- The state with any other readiness. -/
def State.withReadiness (r : Bool) (st : InitStatus) (s : State) : State := { s with ready := r, initStatus := st }

/-- An update of the state that neither reads nor writes the readiness. -/
def KeepsReadiness (f : State → State) : Prop :=
  ∀ r st s, f (s.withReadiness r st) = (f s).withReadiness r st

/-- An operation that answers, from any other readiness, the same next state but for the readiness. -/
def IgnoresReadiness (op : State → StepOutcome) : Prop :=
  ∀ r st s t, op s = .next t → op (s.withReadiness r st) = .next (t.withReadiness r st)

theorem KeepsReadiness.ignores {f : State → State} (hf : KeepsReadiness f) : IgnoresReadiness fun s => .next (f s) := by
  intro r st s t h
  cases h
  exact congrArg _ (hf r st s)

/-- The checks in front of every host operation do not read the readiness (R75, R155). -/
theorem hostOp_ignoresReadiness {body : State → StepOutcome} (hb : IgnoresReadiness body) :
    IgnoresReadiness fun s => hostOp s body := by
  intro r st s t (h : hostOp s body = .next t)
  rcases hostOp_cases s body with ⟨hh, e⟩ | ⟨hh, hn, e⟩ | ⟨hh, hn, e⟩ <;> rw [e] at h
  · cases h
    exact hostOp_halted (s := s.withReadiness r st) hh body
  · cases h
    exact hostOp_busy (s := s.withReadiness r st) hh hn body
  · exact (hostOp_live (s := s.withReadiness r st) hh hn body).trans (hb r st s t h)

/-- The check for a buffer does not read the readiness (R76). -/
theorem withBuffer_ignoresReadiness (o : Opcode) {body : State → State} (hb : KeepsReadiness body) :
    IgnoresReadiness fun s => withBuffer o s body := by
  intro r st s t (h : withBuffer o s body = .next t)
  cases ha : s.params.allocOk
  · rw [withBuffer_absent ha] at h
    cases h
    exact withBuffer_absent (s := s.withReadiness r st) ha o body
  · rw [withBuffer_present ha] at h
    cases h
    exact (withBuffer_present (s := s.withReadiness r st) ha o body).trans (congrArg _ (hb r st s))

theorem setChannel_keepsReadiness (o : Opcode) (j : Nat) (v : Word) : KeepsReadiness (setChannel o j v) := by
  intro r st s
  simp only [setChannel, apply_ite (State.withReadiness r st)]
  rfl

theorem setLed_keepsReadiness (o : Opcode) (k r g b : Word) : KeepsReadiness (setLed o k r g b) := by
  intro rd st s
  rw [setLed, setChannel_keepsReadiness, setChannel_keepsReadiness, setChannel_keepsReadiness, setLed]

theorem completeUnlessFaulted_keepsReadiness (x : Result) : KeepsReadiness (State.completeUnlessFaulted x) := by
  intro r st s
  simp only [State.completeUnlessFaulted, apply_ite (State.withReadiness r st)]
  rfl

theorem KeepsReadiness.comp {f g : State → State} (hf : KeepsReadiness f) (hg : KeepsReadiness g) :
    KeepsReadiness fun s => f (g s) := fun r st s =>
  (congrArg f (hg r st s)).trans (hf r st (g s))

/-- The store operations are the host operations but BEGIN and WRITE (R75, R77). -/
theorem exec_store_ignoresReadiness {i : Instr} (hi : i.hostIssued = true) (hb : i ≠ .begin) (hw : i ≠ .write) :
    IgnoresReadiness (exec i) := by
  cases i with
  | begin => exact absurd rfl hb
  | setch idx val =>
    exact hostOp_ignoresReadiness <| withBuffer_ignoresReadiness _ <|
      (completeUnlessFaulted_keepsReadiness _).comp (setChannel_keepsReadiness _ _ _)
  | getch idx =>
    exact hostOp_ignoresReadiness <| withBuffer_ignoresReadiness _ fun r st s => by
      simp only [apply_ite (State.withReadiness r st)]
      rfl
  | setled k r g b =>
    exact hostOp_ignoresReadiness <| withBuffer_ignoresReadiness _ <|
      (completeUnlessFaulted_keepsReadiness _).comp (setLed_keepsReadiness _ _ _ _ _)
  | getled k =>
    exact hostOp_ignoresReadiness <| withBuffer_ignoresReadiness _ fun r st s => by
      simp only [apply_ite (State.withReadiness r st)]
      rfl
  | setbc r g b => exact hostOp_ignoresReadiness <| KeepsReadiness.ignores fun _ _ _ => rfl
  | setbcu x => exact hostOp_ignoresReadiness <| KeepsReadiness.ignores fun _ _ _ => rfl
  | write => exact absurd rfl hw
  | wrcmd r g b => cases hi

/-- Settles O51, by `exec_store_ignoresReadiness`. -/
theorem storeIgnoresReadiness : Obligations.StoreIgnoresReadiness :=
  fun s t _ r st hi hb hw h => exec_store_ignoresReadiness hi hb hw r st s t h

end Sys2Proof.Machine

/-! PROOFS. The family of `41_frame_transmit.md`: what a WRITE appends, leaves and depends on, the command word at a frame's
head, the serial settings, and that the machine never stops. -/

namespace Sys2Proof.Machine

/-! ## A WRITE that completes -/

/-- A ready WRITE of a live state that answers a next state is the whole transmission: without a buffer it would have
stopped (R93, R94). -/
theorem eq_transmit_of_exec_write {s t : State} (hl : s.Live) (hr : s.ready = true) (h : exec .write s = .next t) :
    t = transmit s := by
  cases ha : s.params.allocOk
  · simp [exec, execWrite, hostOp_live hl.1 hl.2, hr, ha] at h
  · rw [exec_write_ready hl hr ha] at h
    cases h
    rfl

theorem transmit_trace (s : State) : (transmit s).trace = s.trace ++ transmissionEvents s := by
  rw [transmit_eq]

theorem transmit_result (s : State) : (transmit s).result = .nothing := by
  rw [transmit_eq]

theorem transmit_pc (s : State) : (transmit s).pc = s.pc + 1 := by
  rw [transmit_eq]

/-- A state that is not busy holds no transaction. -/
theorem State.txnHeld_of_not_busy {s : State} (h : s.busy = false) : s.txnHeld = false := by
  simp only [State.busy, Bool.or_eq_false_iff] at h
  obtain ⟨⟨-, ht⟩, -⟩ := h
  exact ht

/-- Outside a WRITE the brackets are closed already, so a whole transmission leaves them as they were (R105). -/
theorem transmit_sameButWire {s : State} (hb : s.busy = false) : s.SameButWire (transmit s) := by
  have hc := State.inCritical_of_not_busy hb
  have ht := State.txnHeld_of_not_busy hb
  have hp := State.position_of_not_busy hb
  rw [transmit_eq, State.SameButWire, hc, ht, hp]

/-- Settles O28: the transmission's events are those of R103, with the settle delay of the transport. -/
theorem writeAppendsTransmission : Obligations.WriteAppendsTransmission := by
  intro s hl hr ha
  refine ⟨_, exec_write_ready hl hr ha, ?_, transmit_result s, transmit_pc s, transmit_sameButWire hl.2⟩
  rw [transmit_trace, transmissionEvents, settleMicros_eq]

/-- Settles O35: the closing bracket enables the interrupts and ends the critical section, the transaction and the
position. -/
theorem interruptsEnabledAfterWrite : Obligations.InterruptsEnabledAfterWrite := by
  intro s t hl hr h
  rw [eq_transmit_of_exec_write hl hr h, transmit_eq]
  exact ⟨rfl, rfl, rfl, rfl⟩

/-! ## The events of a WRITE -/

/-- The brackets and the settle delay carry no byte, so the byte events are the chain stream (R101). -/
theorem byteEvents_transmissionEvents (s : State) : byteEvents (transmissionEvents s) = chainStream s := by
  have hopen : byteEvents [.enterCritical, .beginTxn] = [] := rfl
  have hclose : byteEvents [.delay (settleMicros s.params), .endTxn, .exitCritical] = [] := rfl
  rw [transmissionEvents, byteEvents_append, byteEvents_append, byteEvents_transfers, hopen, hclose, List.nil_append,
    List.append_nil]

/-- The pin events of a WRITE: 24 for each of its `28 * N` bytes under the software transport (R104). -/
theorem transmissionEvents_pinCount (s : State) : ((transmissionEvents s).filter Event.isPin).length =
    if s.params.transport = .softwareBitBang then 672 * s.params.chainLength else 0 := by
  obtain ⟨hpins, -⟩ := transfers_counts s.params.transport (chainStream s)
  rw [chainStream_length, ← Nat.mul_assoc] at hpins
  simp [transmissionEvents, hpins, Event.isPin]

/-- Five events of a WRITE are neither bytes nor pin events: the brackets and the settle delay (R103). -/
theorem transmissionEvents_length (s : State) : (transmissionEvents s).length =
    5 + 28 * s.params.chainLength + ((transmissionEvents s).filter Event.isPin).length := by
  obtain ⟨hpins, hlen⟩ := transfers_counts s.params.transport (chainStream s)
  rw [← hpins, chainStream_length] at hlen
  simp [transmissionEvents, hlen, Event.isPin]
  omega

/-- Settles O29, by the events of the transmission. -/
theorem writeByteEventsAreChainStream : Obligations.WriteByteEventsAreChainStream := by
  intro s t hl hr h
  have hbytes := byteEvents_transmissionEvents s
  rw [eq_transmit_of_exec_write hl hr h]
  refine ⟨_, transmit_trace s, hbytes, ?_, transmissionEvents_pinCount s, transmissionEvents_length s⟩
  rw [hbytes, chainStream_length]

/-- No bracket and no settle delay has a rising clock edge, so a receiver samples the bytes' bits alone (R113, R114). -/
theorem sampledLevels_transmissionEvents {s : State} (ht : s.params.transport = .softwareBitBang) (l : PinLevel) :
    sampledLevels l (transmissionEvents s) = ((chainStream s).flatMap msbFirst).map pinOfBit := by
  obtain ⟨l', hl'⟩ := sampledLevels_transfers l (chainStream s) [.delay (settleMicros s.params), .endTxn, .exitCritical]
  rw [transmissionEvents, ht, List.append_assoc]
  simp only [List.cons_append, List.nil_append, sampledLevels, hl', List.append_nil]

/-- Settles O33: the sampled bits are those of the chain stream, which is the byte events. -/
theorem receiverSamplesTheBytes : Obligations.ReceiverSamplesTheBytes := by
  intro s t hl hr ht h
  rw [eq_transmit_of_exec_write hl hr h]
  exact ⟨_, transmit_trace s, by rw [sampledLevels_transmissionEvents ht, byteEvents_transmissionEvents]⟩

/-! ## What the events depend on (R108, R111) -/

/-- A device's frame is a function of the brightness registers and of the device's 12 channels. -/
theorem deviceFrame_congr {s₁ s₂ : State} {n : Nat} (hr : s₁.bcR = s₂.bcR) (hg : s₁.bcG = s₂.bcG)
    (hb : s₁.bcB = s₂.bcB) (hc : ∀ c < 12, s₁.channel (deviceChannel n c) = s₂.channel (deviceChannel n c)) :
    deviceFrame s₁ n = deviceFrame s₂ n := by
  have horder : ∀ c ∈ channelOrder, c < 12 := by decide
  rw [deviceFrame, deviceFrame, hr, hg, hb]
  exact congrArg _ (List.flatMap_congr fun c h => congrArg encodeWord (hc c (horder c h)))

/-- The chain stream is a function of the chain length, the brightness registers and the channels below `C`. -/
theorem chainStream_congr {s₁ s₂ : State} (hN : s₁.params.chainLength = s₂.params.chainLength) (hr : s₁.bcR = s₂.bcR)
    (hg : s₁.bcG = s₂.bcG) (hb : s₁.bcB = s₂.bcB)
    (hc : ∀ i < 12 * s₁.params.chainLength, s₁.channel i = s₂.channel i) : chainStream s₁ = chainStream s₂ := by
  rw [chainStream, chainStream, ← hN]
  refine List.flatMap_congr fun n hn => deviceFrame_congr hr hg hb fun c hc12 => hc _ ?_
  have hn' : n < s₁.params.chainLength := List.mem_range.1 hn
  simp only [deviceChannel]
  omega

/-- A WRITE's events are a function of the chain stream and the transport. -/
theorem transmissionEvents_congr {s₁ s₂ : State} (hs : chainStream s₁ = chainStream s₂)
    (ht : s₁.params.transport = s₂.params.transport) : transmissionEvents s₁ = transmissionEvents s₂ := by
  rw [transmissionEvents, transmissionEvents, settleMicros_eq, settleMicros_eq, hs, ht]

/-- An event that both transports have: no pin event and no settle delay (R111, R118). -/
def Event.sharedByTransports (e : Event) : Bool := !e.isPin && !decide (e = .delay 200 ∨ e = .delay 2)

/-- What the transports share of a list of transfers is its byte events. -/
theorem filter_shared_transfers (t : Transport) (bs : List Byte) :
    (bs.flatMap (transferEvents t)).filter Event.sharedByTransports = bs.map .byte := by
  have hbyte : ∀ x, (transferEvents t x).filter Event.sharedByTransports = [.byte x] := by
    intro x
    cases t <;> simp [transferEvents, msbFirst, bitEvents, Event.sharedByTransports, Event.isPin]
  induction bs with
  | nil => rfl
  | cons x bs ih => rw [List.flatMap_cons, List.filter_append, hbyte, ih]; rfl

/-- What the transports share of a WRITE is its brackets and its byte events (R111). -/
theorem filter_shared_transmissionEvents (s : State) : (transmissionEvents s).filter Event.sharedByTransports =
    [.enterCritical, .beginTxn] ++ (chainStream s).map .byte ++ [.endTxn, .exitCritical] := by
  have hclose : ([.delay (settleMicros s.params), .endTxn, .exitCritical] : List Event).filter
      Event.sharedByTransports = [.endTxn, .exitCritical] := by
    rw [settleMicros_eq]
    cases s.params.transport <;> rfl
  rw [transmissionEvents, List.filter_append, List.filter_append, filter_shared_transfers, hclose]
  rfl

/-- Settles O32: the events are a function of the chain stream and the transport, and the chain stream of the store. -/
theorem writeDependsOnStoreAlone : Obligations.WriteDependsOnStoreAlone := by
  intro s₁ s₂ t₁ t₂ hl₁ hl₂ hr₁ hr₂ hN hr hg hb hc h₁ h₂
  have hs := chainStream_congr hN hr hg hb hc
  rw [eq_transmit_of_exec_write hl₁ hr₁ h₁, eq_transmit_of_exec_write hl₂ hr₂ h₂]
  refine ⟨_, _, transmit_trace s₁, transmit_trace s₂, ?_, transmissionEvents_congr hs, ?_⟩
  · rw [byteEvents_transmissionEvents, byteEvents_transmissionEvents, hs]
  · refine (filter_shared_transmissionEvents s₁).trans ?_
    rw [hs]
    exact (filter_shared_transmissionEvents s₂).symm

/-! ## Pin levels after bytes (R112, R114) -/

/-- Under the software transport the clock is high after the last byte sent, whatever it was before (R114). -/
theorem foldl_sckAfter_software (bs : List Byte) (x : Byte) (l : PinLevel) :
    (bs ++ [x]).foldl (fun l _ => sckAfter .softwareBitBang l) l = .high := by
  rw [List.foldl_concat]
  rfl

/-- Under the software transport the data line is at bit 0 of the last byte sent. -/
theorem foldl_sdoAfter_software (bs : List Byte) (x : Byte) (l : PinLevel) :
    (bs ++ [x]).foldl (fun l x => sdoAfter .softwareBitBang l x) l = pinOfBit (x.getLsbD 0) := by
  rw [List.foldl_concat]
  rfl

/-- The last byte of the chain stream is the low byte of channel 0 of the last device (R63, R64). -/
theorem chainStream_eq_concat {s : State} (hN : 1 ≤ s.params.chainLength) :
    ∃ bs, chainStream s = bs ++ [loByte (s.channel (12 * (s.params.chainLength - 1)))] := by
  have hlast : (chainStream s).length - 1 = 28 * (s.params.chainLength - 1) + 27 := by
    rw [chainStream_length]; omega
  rw [← List.getLast?_eq_some_iff, List.getLast?_eq_getElem?, hlast,
    chainStream_getElem?_frameByte s (by omega) (by omega)]
  exact congrArg some (frameByte_lo s _ 11)

theorem loByte_getLsbD_zero (v : Word) : (loByte v).getLsbD 0 = v.getLsbD 0 := by
  simp [loByte]

/-- Settles O31: the pins are those the chain stream's last byte leaves. -/
theorem pinLevelsAfterWrite : Obligations.PinLevelsAfterWrite := by
  intro s t hl hr hN h
  rw [eq_transmit_of_exec_write hl hr h, transmit_eq]
  refine ⟨fun ht => ?_, fun ht => ?_⟩
  · obtain ⟨bs, hbs⟩ := chainStream_eq_concat hN
    rw [ht, hbs, ← loByte_getLsbD_zero]
    exact ⟨foldl_sckAfter_software bs _ _, foldl_sdoAfter_software bs _ _⟩
  · rw [ht]
    exact ⟨foldl_sckAfter_hardware _ _, foldl_sdoAfter_hardware _ _⟩

/-! ## The command word at a frame's head (R96, R97) -/

/-- At a frame's head the serializer sends the command word. -/
theorem exec_wrcmd_atFrameHead {s : State} (hh : s.halted = false) (hf : s.atFrameHead = true) (r g b : Bright) :
    exec (.wrcmd r g b) s = .next (sendCommand (buildCmd r g b) s) := by
  simp [exec, execWrcmd, hh, hf]

/-- The last byte of a command word in wire order is its lowest (R44). -/
theorem cmdBytes_eq_concat (w : Cmd) :
    cmdBytes w = [w.extractLsb' 24 8, w.extractLsb' 16 8, w.extractLsb' 8 8] ++ [w.extractLsb' 0 8] := rfl

/-- The last byte of a command word ends in the last bit of the blue field (R60). -/
theorem buildCmd_lastByte_getLsbD_zero (r g b : Bright) :
    ((buildCmd r g b).extractLsb' 0 8).getLsbD 0 = b.getLsbD 0 := by
  rw [← buildCmd_getLsbD_zero r g b]
  simp

/-- Settles O36: the four bytes are transferred, and the pins are those the last one leaves. -/
theorem wrcmdSendsCommandWord : Obligations.WrcmdSendsCommandWord := by
  intro s r g b hh hf
  obtain ⟨-, n, -, hp⟩ := State.atFrameHead_position hf
  refine ⟨_, exec_wrcmd_atFrameHead hh hf r g b, ?_⟩
  rw [sendCommand_eq, transferAll_eq, transferAll_position _ s n 0 hp]
  refine ⟨rfl, by rw [hp]; rfl, fun ht => ?_, fun ht => ?_, rfl⟩
  · rw [ht, cmdBytes_eq_concat, ← buildCmd_lastByte_getLsbD_zero r g b]
    exact ⟨foldl_sckAfter_software _ _ _, foldl_sdoAfter_software _ _ _⟩
  · rw [ht]
    exact ⟨foldl_sckAfter_hardware _ _, foldl_sdoAfter_hardware _ _⟩

/-! ## The machine never stops (R106, R131, R136) -/

/-- A host operation answers a next state where its body does so in a live state: every check in front of it ends in a next
state. -/
theorem hostOp_next {s : State} {body : State → StepOutcome} (hb : s.Live → ∃ t, body s = .next t) :
    ∃ t, hostOp s body = .next t := by
  rcases hostOp_cases s body with ⟨-, e⟩ | ⟨-, -, e⟩ | ⟨hh, hn, e⟩ <;> rw [e]
  · exact ⟨_, rfl⟩
  · exact ⟨_, rfl⟩
  · exact hb ⟨hh, hn⟩

/-- A ready block has its buffer (R94). -/
theorem State.Inv.allocOk_of_ready {s : State} (h : s.Inv) : s.ready = true → s.params.allocOk = true := by
  obtain ⟨-, -, -, -, -, halloc, -⟩ := h
  exact halloc

/-- A WRITE stops only where `ready` stands without a buffer, which the invariant rules out (R94). -/
theorem exec_write_next {s : State} (h : s.ready = true → s.params.allocOk = true) : ∃ t, exec .write s = .next t := by
  rw [exec, execWrite]
  refine hostOp_next fun _ => ?_
  cases hr : s.ready
  · exact ⟨_, rfl⟩
  · rw [if_pos rfl, if_pos (h hr)]
    exact ⟨_, rfl⟩

/-- Every instruction answers a next state where `ready` implies a buffer: only WRITE has a stop of the model's own. -/
theorem exec_next {s : State} (h : s.ready = true → s.params.allocOk = true) (i : Instr) : ∃ t, exec i s = .next t := by
  cases i with
  | write => exact exec_write_next h
  | wrcmd r g b => exact ⟨_, rfl⟩
  | begin | setch idx val | getch idx | setled k r g b | getled k | setbc r g b | setbcu x =>
    simp only [exec, execBegin, execSetch, execGetch, execSetled, execGetled, execSetbc, execSetbcu]
    exact hostOp_next fun _ => ⟨_, rfl⟩

/-- The serializer's turn is at the state's own position. -/
theorem position_of_nextAction_serialize {s : State} {p : Position} (h : nextAction s = .serialize p) :
    s.position = some p := by
  unfold nextAction at h
  split at h
  · cases h
  · split at h
    next q hq =>
      split at h
      · cases h
      · cases h
        exact hq
    next => split at h <;> cases h

/-- In a state that meets the invariant a position stands only in the transaction of a ready WRITE, in R36's ranges, so the
serializer's turn there answers a next state. -/
theorem State.Inv.serializerTurn_next {s : State} (h : s.Inv) {p : Position} (hp : s.position = some p) :
    ∃ t, serializerTurn p s = .next t := by
  have halloc := h.allocOk_of_ready
  obtain ⟨-, -, -, -, -, -, -, -, htxn, hpos, hcrit, hleg, -⟩ := h
  have hc : s.inCritical = true := by rw [hpos, hp]; rfl
  obtain ⟨hr, -⟩ := hcrit hc
  exact ⟨_, serializerTurn_runs (halloc hr) hc (htxn.symm.trans hc) (hleg p hp)⟩

/-- Settles O44, by what the step is about. -/
theorem machineNeverStops : Obligations.MachineNeverStops := by
  intro s h
  have hexec := exec_next h.allocOk_of_ready
  refine ⟨?_, hexec⟩
  unfold step
  cases ha : nextAction s with
  | halted => exact ⟨_, rfl⟩
  | idle => exact ⟨_, rfl⟩
  | refuse r => exact ⟨_, rfl⟩
  | host i rest =>
    obtain ⟨t, ht⟩ := hexec i
    exact ⟨_, congrArg (retire rest) ht⟩
  | wire i => exact hexec i
  | serialize p => exact h.serializerTurn_next (position_of_nextAction_serialize ha)

/-! ## The serial settings (R115, R116) -/

/-- The clock lies in R6's range. -/
theorem fSck_range : 500000 ≤ Config.fSck ∧ Config.fSck ≤ 1000000 := by
  have h := Config.sckAboveFloor.isLt
  rw [Config.fSck]
  omega

/-- Settles O41: the settings in force are those of the transport, at a clock in R6's range. -/
theorem transactionSettings : Obligations.TransactionSettings := by
  intro s hx
  obtain ⟨hlo, hhi⟩ := fSck_range
  refine ⟨fun ht => ⟨Config.fSck, hlo, hhi, ?_⟩, fun ht => ?_⟩ <;> rw [spiSettings, if_pos hx, ht]

end Sys2Proof.Machine

/-! PROOFS. The family of `42_initialise.md`: what BEGIN does with and without a channel buffer. -/

namespace Sys2Proof.Machine

/-! ## BEGIN in a live state (R124) -/

/-- With a channel buffer BEGIN initialises the transport. -/
theorem exec_begin_allocated {s : State} (hl : s.Live) (ha : s.params.allocOk = true) :
    exec .begin s = .next (initialiseTransport s) := by
  rw [exec, execBegin, hostOp_live hl.1 hl.2, if_pos ha]

/-- Without a channel buffer BEGIN reports the allocation failure. -/
theorem exec_begin_unallocated {s : State} (hl : s.Live) (ha : s.params.allocOk = false) :
    exec .begin s = .next (reportAllocFail s) := by
  rw [exec, execBegin, hostOp_live hl.1 hl.2, if_neg (Bool.eq_false_iff.mp ha)]

/-! ## What the initialisation records (R124, R126) -/

/-- The outcome recorded and reported is the draw TRANSPORT_OK (log 6). -/
theorem initialiseTransport_outcome (s : State) :
    (Config.transportOk s.draws = true ∧ (initialiseTransport s).initStatus = .ok ∧
      (initialiseTransport s).ready = true ∧ (initialiseTransport s).result = .bool true) ∨
    (Config.transportOk s.draws = false ∧ (initialiseTransport s).initStatus = .transportFail ∧
      (initialiseTransport s).ready = false ∧ (initialiseTransport s).result = .bool false) := by
  rw [initialiseTransport_eq]
  cases hd : Config.transportOk s.draws
  · exact .inr ⟨rfl, rfl, rfl, rfl⟩
  · exact .inl ⟨rfl, rfl, rfl, rfl⟩

/-- Settles O26: BEGIN ends in the initialised transport or in the reported allocation failure. -/
theorem beginReportsInitialisation : Obligations.BeginReportsInitialisation := by
  intro s hl
  refine ⟨rfl, fun ha => ?_, fun ha => ⟨_, exec_begin_allocated hl ha, ?_⟩⟩
  · rw [exec_begin_unallocated hl ha, reportAllocFail_eq]
  · have houtcome := initialiseTransport_outcome s
    rw [initialiseTransport_eq] at houtcome ⊢
    exact ⟨rfl, rfl, houtcome, rfl, rfl, rfl⟩

end Sys2Proof.Machine

/-! PROOFS. The family of `60_exceptions.md`: faults and refusals leave no other effect, the fault table, the halted machine,
and the run that ends in a mark. -/

namespace Sys2Proof.Machine

/-! ## Where a mark stands (R131, R136) -/

theorem State.halted_of_fault {s : State} {f : FaultRecord} (h : s.fault = some f) : s.halted = true := by
  simp [State.halted, h]

/-- Every host operation checks for a mark first, and so does the command word. -/
theorem exec_halted {s : State} (h : s.halted = true) (i : Instr) : exec i s = .next s := by
  cases i with
  | wrcmd r g b => rw [exec, execWrcmd, if_pos h]
  | begin | setch idx val | getch idx | setled k r g b | getled k | setbc r g b | setbcu x | write =>
    simp only [exec, execBegin, execSetch, execGetch, execSetled, execGetled, execSetbc, execSetbcu, execWrite]
    exact hostOp_halted h _

theorem step_halted {s : State} (h : s.halted = true) : step s = .next s := by
  simp [step, nextAction, h]

/-- Settles O11, by `exec_halted` and `step_halted`. -/
theorem haltedMachineIsQuiescent : Obligations.HaltedMachineIsQuiescent := fun _ h =>
  ⟨exec_halted h, step_halted h⟩

/-! ## How a mark comes to stand (R130, R138) -/

/-- An instruction sets a mark by a refusal, or by raising a fault for a cause of R130; one that completes sets none, and
neither does a command word that is sent. -/
theorem exec_newly_halted {i : Instr} {s t : State} (hh : s.halted = false) (h : exec i s = .next t)
    (ht : t.halted = true) : (∃ r, t = s.refuse r) ∨ ∃ f, Raises i s f ∧ t = s.raise f := by
  have marked : t.halted ≠ s.halted := by simp [hh, ht]
  cases exec_answers h with
  | halted _ e => exact absurd (congrArg State.halted e) marked
  | refused _ r e => exact .inl ⟨r, e⟩
  | raised _ f hr e => exact .inr ⟨f, hr, e⟩
  | completed _ hc => exact absurd hc.halted_eq marked
  | sent _ _ r g b _ e =>
    rw [e, sendCommand_frame] at marked
    exact absurd (State.halted_congr rfl rfl) marked

/-- A fault that an instruction leaves where none stood is one it raised (R130, R131). -/
theorem exec_raises {i : Instr} {s t : State} {f : FaultRecord} (hs : s.fault = none) (h : exec i s = .next t)
    (ht : t.fault = some f) : Raises i s f := by
  cases hh : s.halted with
  | true =>
    rw [exec_of_halted hh h, hs] at ht
    cases ht
  | false =>
    rcases exec_newly_halted hh h (State.halted_of_fault ht) with ⟨r, rfl⟩ | ⟨f', hr, rfl⟩
    · cases hs.symm.trans ht
    · cases ht
      exact hr

/-- Settles O48, by `exec_newly_halted`. -/
theorem faultsAreExact : Obligations.FaultsAreExact := by
  intro s t i hh h ht
  rcases exec_newly_halted hh h ht with ⟨r, e⟩ | ⟨f, -, e⟩
  · exact .inr ⟨r, e⟩
  · exact .inl ⟨f, e⟩

/-- Settles O49: a row of the table for each way an operation raises a fault. SETLED meets `C` at its red channel. -/
theorem faultTable : Obligations.FaultTable := by
  intro s t i f hs h ht
  cases exec_raises hs h ht with
  | noBuffer o ha hi ho => exact ⟨rfl, ha, hi, ho⟩
  | overrunCh idx val hi hx => exact ⟨rfl, rfl, by rw [hi]; rfl, .inl ⟨idx, val, hi, hx⟩⟩
  | overrunLed k r g b hi hx =>
    have hred : 3 * k.toNat = channelCount s.params := by rw [channelCount]; omega
    exact ⟨rfl, rfl, by rw [hi]; rfl, .inr ⟨k, r, g, b, hi, hred⟩⟩
  | rangeCh idx hi hx => exact ⟨rfl, by rw [hi]; rfl, .inl ⟨hi, hx⟩⟩
  | rangeLed k hi hx => exact ⟨rfl, by rw [hi]; rfl, .inr ⟨hi, hx⟩⟩
  | notReady hi hx => exact ⟨rfl, hi, rfl, hx, rfl⟩

/-! ## WRITE that is not ready (R94, R135) -/

theorem exec_write_not_ready {s : State} (hl : s.Live) (hr : s.ready = false) :
    exec .write s = .next (s.raise (.notReady .write s.initStatus)) := by
  rw [exec, execWrite, hostOp_live hl.1 hl.2, if_neg (Bool.eq_false_iff.mp hr)]

/-- Settles O27, by `exec_write_not_ready`. -/
theorem writeBeforeBeginFaults : Obligations.WriteBeforeBeginFaults := fun _ => exec_write_not_ready

/-! ## The observation at a run's end (R131, R158) -/

theorem observationOf_endedWell {r : State × List Result} (h : r.1.endedWell) : observationOf r = some
    { trace := r.1.trace, results := r.2, pwm := r.1.pwm, bcR := r.1.bcR, bcG := r.1.bcG, bcB := r.1.bcB,
      ready := r.1.ready } :=
  if_pos h

/-- Settles O52: the observation is that of the run's end. -/
theorem haltedRunHasNoObservation : Obligations.HaltedRunHasNoObservation := by
  intro s run
  rw [observe_eq]
  exact ⟨observationOf_halted, observationOf_endedWell⟩

end Sys2Proof.Machine

/-! PROOFS. The family of `70_reset_and_hazards.md`: construction with illegal parameters, an operation that overlaps a
WRITE, and the machine that waits at the end of the host's sequence. -/

namespace Sys2Proof.Machine

/-! ## The end of the host's sequence (R158) -/

/-- Outside a WRITE a live machine with no bytes left waits for the host (log 8). -/
theorem nextAction_idle {s : State} (hh : s.halted = false) (hp : s.position = none) (hi : s.input = []) :
    nextAction s = .idle := by
  simp [nextAction, hh, hp, hi, decode]

/-- Settles O12: where a mark stands nothing executes, and elsewhere the machine waits. -/
theorem idleMachineWaits : Obligations.IdleMachineWaits := by
  intro s hp hi
  cases hh : s.halted with
  | true => exact step_halted hh
  | false => rw [step, nextAction_idle hh hp hi]

/-! ## An operation that overlaps a WRITE (R155) -/

/-- Every host operation runs behind the checks of `hostOp`; only the command word has checks of its own. -/
theorem exec_eq_hostOp {i : Instr} (hi : i.hostIssued = true) (s : State) : ∃ body, exec i s = hostOp s body := by
  cases i with
  | begin | setch idx val | getch idx | setled k r g b | getled k | setbc r g b | setbcu x | write =>
    simp only [exec, execBegin, execSetch, execGetch, execSetled, execGetled, execSetbc, execSetbcu, execWrite]
    exact ⟨_, rfl⟩
  | wrcmd r g b => cases hi

/-- Settles O13: of the checks in front of the operation, the one for a WRITE in progress turns it away. -/
theorem overlappingOperationIsRefused : Obligations.OverlappingOperationIsRefused := by
  intro s i hh hb hi
  obtain ⟨body, hbody⟩ := exec_eq_hostOp hi s
  rw [hbody]
  exact hostOp_busy hh hb body

/-! ## Construction with illegal parameters (R146) -/

theorem Params.wf_eq_false_iff {p : Params} : p.wf = false ↔ p.chainLength = 0 ∨ 5461 < p.chainLength := by
  rw [Params.wf, Bool.and_eq_false_iff, decide_eq_false_iff_not, decide_eq_false_iff_not]
  omega

theorem construct_illegal {p : Params} (hp : p.wf = false) (input : List Byte) :
    construct p input = State.refuse .config { State.initial p with input := input } :=
  if_neg (Bool.eq_false_iff.mp hp)

/-- Any refusal is a mark at which the machine halts (R136). -/
theorem State.refuse_halted (r : RefReason) (s : State) : (s.refuse r).halted = true := by
  simp [State.refuse, State.halted, State.refused]

/-- Settles O15: construction is the refused reset state, in which no step executes. -/
theorem illegalParametersAreRefused : Obligations.IllegalParametersAreRefused := by
  intro p input hN
  rw [construct_illegal (Params.wf_eq_false_iff.2 hN)]
  exact ⟨rfl, rfl, step_halted (State.refuse_halted _ _)⟩

end Sys2Proof.Machine
